-- ==== Sys2Proof/Word.lean ====
section
/-! DEFINITION. The unit of everything the receiver handles: the byte (R8), and the 16-bit quantity of the
checksum (R112, "the checksum is 16 bits" of R7). Every other number of the receiver is a mathematical integer
(R10) and is a `Nat` or an `Int`. -/

namespace Sys2Proof

/-- A byte: an unsigned integer 0..255 (R8); bit 0 is the least significant bit (R9). -/
abbrev Byte := BitVec 8

/-- `Bytes` of R8: a finite sequence of bytes, indexed from 0 in the order of arrival. -/
abbrev Bytes := List Byte

/-- A 16-bit quantity: the two checksum values of R112. -/
abbrev Half := BitVec 16

end Sys2Proof
end

