-- ==== Sys2Proof/Config.lean ====
section
/-! DEFINITION. The parameters the spec leaves to the implementation (R7): their types. Their default values stand in
Sys2Proof/Machine/Defaults.lean. An instance carries its parameters in `State.params`; no instruction writes them
(R26), so a statement about every state is a statement about every value of every parameter. -/

namespace Sys2Proof

/-- `UNRESOLVABLE_POLICY` (R7, R93): what the reassembler does with a chunk that arrives while the buffer is empty and
does not begin with `START_BYTE`. -/
inductive UnresolvablePolicy
  | discard
  | hold
deriving DecidableEq, Repr

/-- The widths of a frame read (R11, R45): one byte, or two bytes big-endian. -/
inductive ReadWidth
  | one
  | two
deriving DecidableEq, Repr

/-- The number of bytes a read of this width takes. -/
def ReadWidth.bytes : ReadWidth → Nat
  | .one => 1
  | .two => 2

/-- One row of `STATUS_LAYOUT` (R7, "table of (field, payload offset, width)"). -/
structure FieldSlot where
  offset : Nat
  width  : ReadWidth
deriving DecidableEq, Repr

/-- The payload offset just past the field. -/
def FieldSlot.stop (f : FieldSlot) : Nat := f.offset + f.width.bytes

/-- `STATUS_LAYOUT` (R7, R136): where each field of the register-`0x03` payload sits, one slot a row of R136's table.
`temperature` is the slot of reading 0; reading `i` follows `i` widths later. -/
structure StatusLayout where
  voltage         : FieldSlot
  current         : FieldSlot
  balanceCapacity : FieldSlot
  fullCapacity    : FieldSlot
  cycles          : FieldSlot
  date            : FieldSlot
  balanceLow      : FieldSlot
  balanceHigh     : FieldSlot
  faultWord       : FieldSlot
  firmware        : FieldSlot
  soc             : FieldSlot
  fet             : FieldSlot
  cellCount       : FieldSlot
  ntcCount        : FieldSlot
  temperature     : FieldSlot
deriving DecidableEq, Repr

/-- The parameters of one instance, the rows of R7's table in their order. -/
structure Params where
  /-- `UNRESOLVABLE_POLICY`. -/
  policy          : UnresolvablePolicy
  /-- `BUF_CAP`: the capacity of the PartialBuffer in bytes, `none` for `INF`. -/
  bufCap          : Option Nat
  /-- `STATUS_LAYOUT`. -/
  layout          : StatusLayout
  /-- `FAULT_NAMES`: 13 names for bits 0 to 12 of the fault word. -/
  faultNames      : Vector String 13
  /-- `FET_CHARGE_BIT`, 0..7. -/
  fetChargeBit    : Fin 8
  /-- `FET_DISCHARGE_BIT`, 0..7. -/
  fetDischargeBit : Fin 8
  /-- `MAX_BALANCE_CELLS`. -/
  maxBalanceCells : Nat
deriving DecidableEq, Repr

end Sys2Proof
end

