-- ==== Sys2Proof/Machine/Defaults.lean ====
section
/-! DEFINITION. The constants the source fixes (R6) and the default values of the parameters (R7, R136, R148). -/

namespace Sys2Proof

/-- `START_BYTE` (R6, R62). -/
def startByte : Byte := 0xDD
/-- `STOP_BYTE` (R6, R62). -/
def stopByte : Byte := 0x77
/-- `REG_STATUS` (R6). -/
def regStatus : Byte := 0x03
/-- `REG_CELLV` (R6). -/
def regCellv : Byte := 0x04
/-- `OVERHEAD` (R6): the bytes of a frame that are not payload. -/
def overhead : Nat := 7
/-- `IDX_REG` (R6). -/
def idxReg : Nat := 1
/-- `IDX_B2` (R6). -/
def idxB2 : Nat := 2
/-- `IDX_LEN` (R6). -/
def idxLen : Nat := 3
/-- `IDX_PAYLOAD` (R6). -/
def idxPayload : Nat := 4

/-- `CMD_READ03` (R6), `RDREG3` of R175: `DD A5 03 00 FF FD 77`. -/
def cmdRead03 : Bytes := [0xDD, 0xA5, 0x03, 0x00, 0xFF, 0xFD, 0x77]
/-- `CMD_READ04` (R6), `RDREG4` of R175: `DD A5 04 00 FF FC 77`. -/
def cmdRead04 : Bytes := [0xDD, 0xA5, 0x04, 0x00, 0xFF, 0xFC, 0x77]

/-- The command store, address space S4 of R40 (R28, "the 14-byte command store"): the two constants one after the
other. DESIGN CHOICE: the spec gives them no order in the store; RDREG3 has addresses 0 to 6 and RDREG4 7 to 13
(entry 28). -/
def commandStore : Bytes := cmdRead03 ++ cmdRead04

/-- The default `STATUS_LAYOUT`: the table of R136. PRESUMED by the spec from the device family (entry 7); unsafe. -/
def StatusLayout.standard : StatusLayout where
  voltage         := ⟨0, .two⟩
  current         := ⟨2, .two⟩
  balanceCapacity := ⟨4, .two⟩
  fullCapacity    := ⟨6, .two⟩
  cycles          := ⟨8, .two⟩
  date            := ⟨10, .two⟩
  balanceLow      := ⟨12, .two⟩
  balanceHigh     := ⟨14, .two⟩
  faultWord       := ⟨16, .two⟩
  firmware        := ⟨18, .one⟩
  soc             := ⟨19, .one⟩
  fet             := ⟨20, .one⟩
  cellCount       := ⟨21, .one⟩
  ntcCount        := ⟨22, .one⟩
  temperature     := ⟨23, .two⟩

/-- `FAULT0` .. `FAULT12` (R7, R145). -/
def standardFaultNames : Vector String 13 :=
  #v["FAULT0", "FAULT1", "FAULT2", "FAULT3", "FAULT4", "FAULT5", "FAULT6", "FAULT7", "FAULT8", "FAULT9", "FAULT10",
    "FAULT11", "FAULT12"]

/-- The defaults of R7. The two FET bits are PRESUMED by the spec from the device family (R148, entry 8); unsafe. -/
def Params.standard : Params where
  policy          := .discard
  bufCap          := none
  layout          := .standard
  faultNames      := standardFaultNames
  fetChargeBit    := 0
  fetDischargeBit := 1
  maxBalanceCells := 32

end Sys2Proof
end

