-- ==== Sys2Proof/Machine/State.lean ====
section
/-! DEFINITION. The receiver's state, its outputs and the ways a step can stop.

The spec gives the receiver ONE piece of mutable state, the PartialBuffer (R20, R22): the field `pb`. `params` holds
the instance's static parameters (R7, R26; entry 1). `inbox`, `events` and `cmdReads` are the model's own: the host's
side of the interface, the transactions it has yet to make and what has come out (R12, R185; entries 2, 3, 4). -/

namespace Sys2Proof.Machine

/-- `PB` (R20): `EMPTY`, or `HOLD(b)` with `|b| >= 1`. `hold b0 bs` is `HOLD(b)` for `b = b0 :: bs`, so that a held
buffer is never of length zero (R21 I1); `b0` is the byte R94 compares with. -/
inductive PartialBuffer
  | empty
  | hold (b0 : Byte) (bs : Bytes)
deriving DecidableEq, Repr

/-- The `StatusRecord` of R152, a field a row of its table. The integers are raw: 0.01 V, 0.01 A (positive = charging),
0.01 Ah, percent, 0.1 version units, 0.1 degrees Celsius (R67; entry 23). -/
structure StatusRecord where
  voltageRaw         : Nat
  currentRaw         : Int
  balanceCapacityRaw : Nat
  fullCapacityRaw    : Nat
  soc                : Nat
  cycles             : Nat
  year               : Nat
  month              : Nat
  day                : Nat
  /-- `min(cellCount, MAX_BALANCE_CELLS)` flags, cell 0 first (R144). -/
  balance            : List Bool
  /-- 13 flags, `FAULT0` first (R145). -/
  fault              : List Bool
  fwRaw              : Nat
  chargingEnabled    : Bool
  dischargingEnabled : Bool
  cellCount          : Nat
  ntcCount           : Nat
  /-- `ntcCount` readings, sensor 0 first (R151). -/
  tempDC             : List Int
deriving DecidableEq, Repr

/-- `DecodedRecord` of R12 with its failure `ShortPayload`: what `DISPATCH` and the decoders give. The list of
`cellVoltages` is the `CellVoltageRecord`, in millivolts, cell 0 first (R165, R167). -/
inductive DecodedRecord
  | status (r : StatusRecord)
  | cellVoltages (mv : List Nat)
  | unrecognized (reg : Byte)
  | shortPayload
deriving DecidableEq, Repr

/-- Every cause of a `decodeError`, with what it carries beside the raw bytes (R186, the closed enumeration;
entry 27). -/
inductive Reason
  | checksumMismatch (computed received : Half)
  | unknownRegister (reg : Byte)
  | shortPayload
  | lengthMismatch
  | unframed
  | overflow
deriving DecidableEq, Repr

/-- The three kinds of event (R185). `raw` of a `decodeError` is `rawFrameBytesOrNone`. -/
inductive Event
  | status (r : StatusRecord)
  | cellVoltages (mv : List Nat)
  | decodeError (reason : Reason) (raw : Option Bytes)
deriving DecidableEq, Repr

/-- What the host can ask of the receiver (R12, R98, R175): a `FEED`, a `RESET`, a read of one of the two command
constants. A program (R3, R72) is a list of these. -/
inductive Request
  | feed (c : Bytes)
  | reset
  | readCommand03
  | readCommand04
deriving DecidableEq, Repr

/-- The state of one receiver instance and of its host interface. -/
structure State where
  /-- The PartialBuffer, the receiver's only mutable state (R20, R22). -/
  pb       : PartialBuffer
  /-- The static parameters of the instance (R7, R26); no instruction writes them. -/
  params   : Params
  /-- The model's own: the host transactions not yet made, in order (R47, R72; entry 2). -/
  inbox    : List Request
  /-- The model's own: the events emitted so far, oldest first (R48, R185; entry 3). -/
  events   : List Event
  /-- The model's own: what the host has read from the command store, oldest first (R40 S4; entry 4). -/
  cmdReads : List Bytes
deriving DecidableEq, Repr

/-- Why the machine stops with a fault. -/
inductive Fault
  /-- A frame read at an index outside the sequence, where `MemRead` is not defined (R11, R46). Raised by the reads of
  CHKSUM and the decoders through `byteAt`; no step reaches it (R46). Safe: the model stops where the spec has no
  behaviour (entry 11). -/
  | readOutOfBounds (index : Nat)
deriving DecidableEq, Repr

/-- Why a step has no meaning. -/
inductive Refusal
  /-- An instruction the model gives no meaning, by its mnemonic. Raised by exec's arms only; none does. Safe. -/
  | notModelled (mnemonic : String)
  /-- `FEED` with the empty chunk, which R99 says a model should refuse. Raised by FEED. Safe (entry 5). -/
  | emptyChunk
deriving DecidableEq, Repr

/-- The outcome of a step or of an instruction. -/
abbrev Result := Host.Outcome State Fault Refusal

/-- The receiver right after reset: `PB = EMPTY` (R30), the default parameters (R7), nothing asked and nothing out. -/
def State.reset : State where
  pb       := .empty
  params   := .standard
  inbox    := []
  events   := []
  cmdReads := []

end Sys2Proof.Machine
end

