-- ==== Sys2Proof/Machine/Operands.lean ====
section
/-! DEFINITION. Operand assembly: slices and bit fields (R8, R9), frame reads (R11, R42, R45), the fields of a format-R
frame (R23, R60), scaling-free field assembly (R66), and the frame with given fields (R60, R74). -/

namespace Sys2Proof.Machine

/-- `b[i..j]` of R8, both ends inclusive, empty when `j < i`. -/
def slice (b : Bytes) (i j : Nat) : Bytes := (b.drop i).take (j + 1 - i)

/-- `v[hi:lo]` of R9. -/
def bits (v hi lo : Nat) : Nat := (v >>> lo) % 2 ^ (hi - lo + 1)

/-- `v[n] = 1` (R9). -/
def bit (v n : Nat) : Bool := decide (bits v n n = 1)

/-- `sext_16` of R10. -/
def sext16 (v : Nat) : Int := if v < 32768 then v else (v : Int) - 65536

/-- The sum of a byte sequence over the integers (R112). -/
def sumBytes (b : Bytes) : Nat := (b.map BitVec.toNat).sum

/-- `b[i]`, defined only for `i < |b|` (R8); a read elsewhere faults (entry 11). -/
def byteAt (b : Bytes) (i : Nat) : Except Fault Byte :=
  match b[i]? with
  | some x => .ok x
  | none => .error (.readOutOfBounds i)

/-- `MemRead(addr, n)` of R11 on any byte sequence: `n` bytes at `addr` as an unsigned big-endian integer (R42). A
two-byte read is two byte reads, at an index of either parity (R44). -/
def memRead (b : Bytes) (addr : Nat) : ReadWidth → Except Fault Nat
  | .one => (byteAt b addr).map BitVec.toNat
  | .two => do
      let hi ← byteAt b addr
      let lo ← byteAt b (addr + 1)
      return hi.toNat * 256 + lo.toNat

/-- The field in a slot of the layout (R66, R136). -/
def readSlot (p : Bytes) (f : FieldSlot) : Except Fault Nat := memRead p f.offset f.width

/-- `n` consecutive reads of one width from `addr` on (R151, R167). -/
def readRun (b : Bytes) (addr : Nat) (w : ReadWidth) : Nat → Except Fault (List Nat)
  | 0 => .ok []
  | n + 1 => do
      let x ← memRead b addr w
      let xs ← readRun b (addr + w.bytes) w n
      return x :: xs

/-- The named fields of a format-R frame that the dispatcher and the decoders use (R23). -/
structure FrameFields where
  reg     : Byte
  b2      : Byte
  payload : Bytes
deriving DecidableEq, Repr

/-- The payload `P = F[4..N-4]` (R23, R60, R112). -/
def payloadOf (F : Bytes) : Bytes := slice F idxPayload (F.length - 4)

/-- `REG = F[1]`, `B2 = F[2]`, `P = F[4..N-4]` (R23). -/
def frameFields (F : Bytes) : Except Fault FrameFields := do
  let reg ← byteAt F idxReg
  let b2 ← byteAt F idxB2
  return { reg, b2, payload := payloadOf F }

/-- `(0x10000 - sum) mod 0x10000`, the 16 bits of R112. -/
def checksumOf (sum : Nat) : Half := BitVec.ofInt 16 (0x10000 - (sum : Int))

/-- The format-R frame with these fields (R60): `LEN = |p|` and the checksum that R112 computes over it. It is `ENC` of
R74, and the bytes of the frame a STATUS, CELLV or UNREC instruction was decoded from (entry 15). -/
def frameOf (reg b2 : Byte) (p : Bytes) : Bytes :=
  let chk := checksumOf (p.length + sumBytes p)
  [startByte, reg, b2, BitVec.ofNat 8 p.length] ++ p ++ [chk.extractLsb' 8 8, chk.extractLsb' 0 8, stopByte]

/-- `FRAME(reg, payload)` of R73: `ENC(reg, 0x00, payload)`. -/
def frame (reg : Byte) (p : Bytes) : Bytes := frameOf reg 0x00 p

/-! ## The fields of the status payload (R138 to R151) -/

/-- The fixed fields of the layout, in the order of R136's table; a temperature reading is not one of them. -/
def fixedSlots (l : StatusLayout) : List FieldSlot :=
  [l.voltage, l.current, l.balanceCapacity, l.fullCapacity, l.cycles, l.date, l.balanceLow, l.balanceHigh, l.faultWord,
    l.firmware, l.soc, l.fet, l.cellCount, l.ntcCount]

/-- The length of the fixed part of the payload (R137): 23 with the layout of R136 (entry 16). -/
def fixedLen (l : StatusLayout) : Nat := ((fixedSlots l).map FieldSlot.stop).foldr max 0

/-- The payload length that `ntcCount` readings need (R137): `23 + 2*ntcCount` with the layout of R136.
DESIGN CHOICE for any other layout, where the spec gives no minimum: the offset of the readings counts even when
`ntcCount` is 0 and there is no reading (entry 16). -/
def lenWithReadings (l : StatusLayout) (ntcCount : Nat) : Nat :=
  l.temperature.offset + l.temperature.width.bytes * ntcCount

/-- The balance flags of R144: `n = min(cellCount, MAX_BALANCE_CELLS)` of them, cells 0 to 15 from the first word, the
mask restarting at the 17th cell (entries 22, 25). -/
def balanceFlags (maxCells cellCount w0 w1 : Nat) : List Bool :=
  (List.range (min cellCount maxCells)).map fun i => if i < 16 then bit w0 i else bit w1 (i - 16)

/-- The 13 fault flags of R145; bits 15:13 appear nowhere. -/
def faultFlags (w : Nat) : List Bool := (List.range 13).map (bit w)

/-- `temp_dC` of R151: the tie of the rounding goes upward (entry 12). -/
def tempOf (tRaw : Nat) : Int := (tRaw : Int) - 2731

end Sys2Proof.Machine
end

