-- ==== Sys2Proof/Machine/Flags.lean ====
section
/-! DEFINITION. The three predicates that play the part of condition codes inside one FEED (R25): BOUNDARY_OK (R91),
LENGTH_OK (R111), CHECKSUM_OK (R113). Each is computed, tested once and forgotten: no flag is stored. -/

namespace Sys2Proof.Machine

/-- `BOUNDARY_OK(b)` of R91: the first byte is START_BYTE and the last is STOP_BYTE; nothing else is read. -/
def boundaryOk (b : Bytes) : Bool :=
  decide (b.head? = some startByte) && decide (b.getLast? = some stopByte)

/-- `LENGTH_OK(F)` of R111; `F[3]` is read only when `N >= 7`. -/
def lengthOk (F : Bytes) : Bool :=
  if F.length < overhead then false
  else match F[idxLen]? with
    | some len => decide (len.toNat + overhead = F.length)
    | none => false

/-- The two values CHKSUM compares (R112). -/
structure ChecksumPair where
  computed : Half
  received : Half
deriving DecidableEq, Repr

/-- `sum`, `computed` and `received` of R112, read from a frame: the sum covers LEN and the payload only
(entry 13). -/
def checksumPair (F : Bytes) : Except Fault ChecksumPair := do
  let len ← byteAt F idxLen
  let hi ← byteAt F (F.length - 3)
  let lo ← byteAt F (F.length - 2)
  return { computed := checksumOf (len.toNat + sumBytes (payloadOf F)), received := hi ++ lo }

/-- `CHECKSUM_OK(F)` of R113: the computed value's high and low byte are the received ones. -/
def ChecksumPair.ok (k : ChecksumPair) : Bool :=
  decide (k.computed.extractLsb' 8 8 = k.received.extractLsb' 8 8) &&
    decide (k.computed.extractLsb' 0 8 = k.received.extractLsb' 0 8)

/-- `CHECKSUM_OK` of a frame; false where its bytes cannot be read. -/
def checksumOk (F : Bytes) : Bool :=
  match checksumPair F with
  | .ok k => k.ok
  | .error _ => false

/-- A frame is *valid* when it is complete (boundary and length) and its checksum matches (R25, R113). -/
def validFrame (F : Bytes) : Bool := boundaryOk F && lengthOk F && checksumOk F

end Sys2Proof.Machine
end

