-- ==== Sys2Proof/Syntax.lean ====
section
/-! DEFINITION. The instructions: one constructor a row of spec/opcode_table.json, in the table's order. -/

namespace Sys2Proof

/-- The operations of R12 and R68. The host operations FEED and RESET and the stages LENCHK and CHKSUM have no
encoding (R75); STATUS, CELLV and UNREC are the format-R frames by register id (R68), with the fields the frame holds
beside its markers, its length byte `LEN = |p|` and its checksum; RDREG3 and RDREG4 are the two format-C constants. -/
inductive Instr
  /-- `FEED(c)` (R90): one chunk from the transport. -/
  | feed (c : Bytes)
  /-- `RESET` (R98). -/
  | reset
  /-- `LENCHK(F)` (R111): the Length Validator on a candidate frame. -/
  | lenchk (F : Bytes)
  /-- `CHKSUM(F)` (R113): the Checksum Validator on a length-consistent frame. -/
  | chksum (F : Bytes)
  /-- `STATUS` (R135): a valid frame with `REG = 0x03`, its byte `B2` and its payload. -/
  | status (b2 : Byte) (p : Bytes)
  /-- `CELLV` (R165): a valid frame with `REG = 0x04`. -/
  | cellv (b2 : Byte) (p : Bytes)
  /-- `UNREC` (R126): a valid frame with any other register id. -/
  | unrec (reg b2 : Byte) (p : Bytes)
  /-- `RDREG3` (R175): the read-register-3 command. -/
  | rdreg3
  /-- `RDREG4` (R175): the read-register-4 command. -/
  | rdreg4
deriving DecidableEq, Repr

end Sys2Proof
end

