-- ==== Sys2Proof/WellFormed.lean ====
section
/-! DEFINITION. Which instructions the spec admits: the preconditions of their rules. -/

namespace Sys2Proof

open Machine

/-- The operand checks, one a constructor: a chunk is non-empty (R90, R99); LENCHK's operand is a candidate frame, one
that passed the boundary test (R111, glossary); CHKSUM's is length-consistent (R112); a payload has at most 255 bytes
(R63, R74); UNREC's register id is neither `0x03` nor `0x04` (R126). -/
def Instr.wf : Instr → Bool
  | .feed c => decide (c ≠ [])
  | .reset => true
  | .lenchk F => boundaryOk F
  | .chksum F => lengthOk F
  | .status _ p => decide (p.length ≤ 255)
  | .cellv _ p => decide (p.length ≤ 255)
  | .unrec reg _ p => decide (reg ≠ regStatus) && decide (reg ≠ regCellv) && decide (p.length ≤ 255)
  | .rdreg3 => true
  | .rdreg4 => true

end Sys2Proof
end

