-- ==== Sys2Proof/Decode.lean ====
section
/-! DEFINITION. From bytes to an instruction and back. Only the rows of formats R and C have an encoding (R75): a valid
format-R frame decodes to STATUS, CELLV or UNREC by its header word (R68), the two 7-byte constants of format C to
RDREG3 and RDREG4 (R175). FEED, RESET, LENCHK and CHKSUM have none: they are transactions and stages. -/

namespace Sys2Proof

open Machine

/-- Why bytes are no instruction. -/
inductive DecodeReject
  /-- Fewer than 4 header bytes, or not `LEN + 7` bytes in all (R63). -/
  | lengthMismatch
  /-- The first byte is not START_BYTE (R62). -/
  | noStartByte
  /-- The last byte is not STOP_BYTE (R62). -/
  | noStopByte
  /-- The checksum of R112 does not match. -/
  | checksumMismatch (computed received : Half)
deriving DecidableEq, Repr

/-- The format-R rows of the opcode table. -/
inductive OpcodeRow
  | status
  | cellv
  | unrec
deriving DecidableEq, Repr

/-- A row's pattern over the 32-bit header word (R75). -/
structure RowPattern where
  row   : OpcodeRow
  value : BitVec 32
  mask  : BitVec 32
deriving DecidableEq, Repr

/-- `match` and `mask` of the format-R rows of spec/opcode_table.json, the default row UNREC last (R75). -/
def opcodeRows : List RowPattern :=
  [⟨.status, 0xDD030000, 0xFFFF0000⟩, ⟨.cellv, 0xDD040000, 0xFFFF0000⟩, ⟨.unrec, 0xDD000000, 0xFF000000⟩]

/-- The header word `F[0]*2^24 + F[1]*2^16 + F[2]*2^8 + F[3]` (R75). -/
def headerWord (start reg b2 len : Byte) : BitVec 32 := start ++ reg ++ b2 ++ len

/-- `(header & mask) = match` (R75). -/
def RowPattern.selects (r : RowPattern) (header : BitVec 32) : Bool := decide (header &&& r.mask = r.value)

/-- The row a header selects: the first that matches, the more specific masks standing first (R75). -/
def selectRow (header : BitVec 32) : Option OpcodeRow :=
  (opcodeRows.find? fun r => r.selects header).map (·.row)

/-- The instruction of a row with the frame's fields as operands (R68). -/
def OpcodeRow.instr (reg b2 : Byte) (p : Bytes) : OpcodeRow → Instr
  | .status => .status b2 p
  | .cellv => .cellv b2 p
  | .unrec => .unrec reg b2 p

/-- A format-R frame: header, row, length, stop byte, checksum (R60, R62, R63, R112). -/
def decodeFrame (F : Bytes) : Except DecodeReject Instr :=
  match F with
  | start :: reg :: b2 :: len :: rest =>
    match selectRow (headerWord start reg b2 len) with
    | none => .error .noStartByte
    | some row =>
      let p := rest.take len.toNat
      match rest.drop len.toNat with
      | [hi, lo, stop] =>
        let computed := checksumOf (len.toNat + sumBytes p)
        if stop ≠ stopByte then .error .noStopByte
        else if computed ≠ hi ++ lo then .error (.checksumMismatch computed (hi ++ lo))
        else .ok (row.instr reg b2 p)
      | _ => .error .lengthMismatch
  | _ => .error .lengthMismatch

/-- The instruction that `F` encodes: a format-C constant, which no valid format-R frame equals (R177, R180), or a
format-R frame. -/
def decode (F : Bytes) : Except DecodeReject Instr :=
  if F = cmdRead03 then .ok .rdreg3
  else if F = cmdRead04 then .ok .rdreg4
  else decodeFrame F

/-- The bytes of an instruction that has an encoding (R60, R74, R175). -/
def encode : Instr → Option Bytes
  | .feed _ => none
  | .reset => none
  | .lenchk _ => none
  | .chksum _ => none
  | .status b2 p => some (frameOf regStatus b2 p)
  | .cellv b2 p => some (frameOf regCellv b2 p)
  | .unrec reg b2 p => some (frameOf reg b2 p)
  | .rdreg3 => some cmdRead03
  | .rdreg4 => some cmdRead04

/-! ## The host's table words (entry 14) -/

/-- The `n` low bytes of `w`, most significant first: the order of R75's header word and of its `encoding` strings. -/
def bigEndianBytes (w : Nat) : Nat → Bytes
  | 0 => []
  | n + 1 => BitVec.ofNat 8 (w >>> (8 * n)) :: bigEndianBytes w n

/-- The bytes of a table word. A row of 32 bits is a header word: the `LEN` payload bytes it announces are zeros, and the
bytes that are no operand, the checksum and the stop byte, are the ones the format requires (entry 14). -/
def tableBytes (nbits w : Nat) : Bytes :=
  match bigEndianBytes w (nbits / 8) with
  | [start, reg, b2, len] =>
    if start = startByte then frameOf reg b2 (List.replicate len.toNat 0) else [start, reg, b2, len]
  | bs => bs

/-- The instruction the decoder reads from a table word. -/
def decodeTableWord (nbits w : Nat) : Option Instr :=
  match decode (tableBytes nbits w) with
  | .ok i => some i
  | .error _ => none

end Sys2Proof
end

