-- ==== Sys2Proof/Machine/Ops.lean ====
section
/-! DEFINITION. The operations the instructions share: the buffer space S1 (R40), emitting an event (R11, R185), raising
a decodeError (R190), and the test a stage makes of a frame (R110). Every write of State goes through this file. -/

namespace Sys2Proof.Machine

/-! ## The PartialBuffer and the buffer space S1 -/

/-- The bytes `b` of `HOLD(b)`; none when the buffer is empty. -/
def PartialBuffer.contents : PartialBuffer → Bytes
  | .empty => []
  | .hold b0 bs => b0 :: bs

/-- The write index `|b|` (R24). -/
def PartialBuffer.length (pb : PartialBuffer) : Nat := pb.contents.length

/-- `PB <- HOLD(b)` for a non-empty `b`. -/
def PartialBuffer.ofBytes : Bytes → PartialBuffer
  | [] => .empty
  | b0 :: bs => .hold b0 bs

/-- The byte at a buffer address, S1 of R40: indices `0 .. |b|-1`, nothing elsewhere. -/
def PartialBuffer.read (pb : PartialBuffer) (addr : Nat) : Option Byte := pb.contents[addr]?

/-- Memory as (address, byte) pairs. -/
abbrev Memory := List Host.Cell

/-- The buffer space as memory cells: address `i` holds `b[i]` (entry 18). -/
def PartialBuffer.cells (pb : PartialBuffer) : Memory :=
  (List.range pb.length).zip pb.contents

/-- The canonical form of the buffer space: the listed addresses are `0 .. n-1`, rising without gaps. -/
abbrev Memory.wf (m : Memory) : Prop := m.map Prod.fst = List.range m.length

/-- `PB <- v` (R11). -/
def State.setPb (s : State) (pb : PartialBuffer) : State := { s with pb := pb }

/-! ## Output -/

/-- `emit e` of R11: appends an event to the output. -/
def State.emit (s : State) (e : Event) : State := { s with events := s.events ++ [e] }

/-- `raise X(info)` of R11 and R190, the receiver's one exception entry: a `decodeError` is emitted and processing of the
frame or chunk ends. PB already holds its final value; nothing is saved, no mode or control changes. There is no return
from it: the receiver is ready for the next FEED (R191). -/
def State.raise (s : State) (reason : Reason) (raw : Option Bytes) : Result :=
  .next (s.emit (.decodeError reason raw))

/-- The numeric code of a reason (R186). -/
def Reason.code : Reason → Nat
  | .checksumMismatch _ _ => 1
  | .unknownRegister _ => 2
  | .shortPayload => 3
  | .lengthMismatch => 4
  | .unframed => 5
  | .overflow => 6

/-- The host reads bytes from the command store S4 (R40, R175). -/
def State.recordRead (s : State) (bytes : Bytes) : State := { s with cmdReads := s.cmdReads ++ [bytes] }

/-! ## Reads and stages -/

/-- Goes on with what a read gave, or stops with its fault. -/
def orFault {α : Type} (x : Except Fault α) (k : α → Result) : Result :=
  match x with
  | .ok a => k a
  | .error f => .fault f

/-- A stage of R110: it goes on when its check passed, and raises the reason on the frame when it failed. -/
def passOrRaise (check : Option Reason) (F : Bytes) (k : State → Result) (s : State) : Result :=
  match check with
  | none => k s
  | some reason => s.raise reason (some F)

/-- The event of a decoder's result (R110, R127): a record, or the failure with the frame's raw bytes. -/
def DecodedRecord.event (raw : Bytes) : DecodedRecord → Event
  | .status r => .status r
  | .cellVoltages mv => .cellVoltages mv
  | .unrecognized reg => .decodeError (.unknownRegister reg) (some raw)
  | .shortPayload => .decodeError .shortPayload (some raw)

/-- Emits what a decoder gave for the frame `raw`. -/
def emitDecoded (d : Except Fault DecodedRecord) (raw : Bytes) (s : State) : Result :=
  orFault d fun r => .next (s.emit (r.event raw))

/-! ## Requests -/

/-- The instruction a host transaction is (R12, R175). -/
def Request.instr : Request → Instr
  | .feed c => .feed c
  | .reset => .reset
  | .readCommand03 => .rdreg3
  | .readCommand04 => .rdreg4

end Sys2Proof.Machine
end

