-- ==== Sys2Proof/Machine/Commands.lean ====
section
/-! DEFINITION. The Command Catalog (R175): the host's reads of the two constants of the command store. They change
nothing of the receiver (R178; entry 4). -/

namespace Sys2Proof.Machine

/-- RDREG3 (R175): the host gets `DD A5 03 00 FF FD 77`, the first 7 bytes of the command store
(entry 28). -/
def execRdreg3 (s : State) : Result := .next (s.recordRead (slice commandStore 0 6))

/-- RDREG4 (R175): the host gets `DD A5 04 00 FF FC 77`, the last 7 bytes of the command store
(entry 28). -/
def execRdreg4 (s : State) : Result := .next (s.recordRead (slice commandStore 7 13))

end Sys2Proof.Machine
end

