-- ==== Sys2Proof/Machine/Checks.lean ====
section
/-! DEFINITION. The check pipeline's two stages: the Length Validator LENCHK (R111) and the Checksum Validator CHKSUM
(R112, R113). As an instruction of its own a stage that passes changes nothing (entry 20). -/

namespace Sys2Proof.Machine

/-- LENCHK's verdict on a candidate frame: none when it passes (R111). -/
def lengthStage (F : Bytes) : Option Reason := if lengthOk F then none else some .lengthMismatch

/-- CHKSUM's verdict on a frame: none when it passes, else the mismatch with both values (R113). -/
def checksumStage (F : Bytes) : Except Fault (Option Reason) :=
  (checksumPair F).map fun k => if k.ok then none else some (.checksumMismatch k.computed k.received)

/-- LENCHK (R111): `decodeError(LengthMismatch, raw = F)` unless `LENGTH_OK(F)`. -/
def execLenchk (F : Bytes) (s : State) : Result := passOrRaise (lengthStage F) F .next s

/-- CHKSUM (R113): `decodeError(ChecksumMismatch, computed, received, raw = F)` unless `CHECKSUM_OK(F)`. -/
def execChksum (F : Bytes) (s : State) : Result :=
  orFault (checksumStage F) fun verdict => passOrRaise verdict F .next s

end Sys2Proof.Machine
end

