-- ==== Sys2Proof/Machine/Decoders.lean ====
section
/-! DEFINITION. The Register Decoders and the unknown-register outcome: STATUS (R135 to R152), CELLV (R165 to R170),
UNREC (R126). They are pure functions of the payload and the parameters; B2, the checksum and the stop byte are read by
none of them (R70, R135). -/

namespace Sys2Proof.Machine

/-- The record of R152 from a payload that R137 admitted. -/
def statusRecord (prm : Params) (p : Bytes) : Except Fault StatusRecord := do
  let l := prm.layout
  let voltage ← readSlot p l.voltage
  let current ← readSlot p l.current
  let balanceCapacity ← readSlot p l.balanceCapacity
  let fullCapacity ← readSlot p l.fullCapacity
  let cycles ← readSlot p l.cycles
  let d ← readSlot p l.date
  let w0 ← readSlot p l.balanceLow
  let w1 ← readSlot p l.balanceHigh
  let w ← readSlot p l.faultWord
  let fw ← readSlot p l.firmware
  let soc ← readSlot p l.soc
  let fet ← readSlot p l.fet
  let cellCount ← readSlot p l.cellCount
  let ntcCount ← readSlot p l.ntcCount
  let tRaw ← readRun p l.temperature.offset l.temperature.width ntcCount
  return {
    voltageRaw := voltage
    currentRaw := sext16 current
    balanceCapacityRaw := balanceCapacity
    fullCapacityRaw := fullCapacity
    soc := soc
    cycles := cycles
    year := 2000 + bits d 15 9
    month := bits d 8 5
    day := bits d 4 0
    balance := balanceFlags prm.maxBalanceCells cellCount w0 w1
    fault := faultFlags w
    fwRaw := fw
    chargingEnabled := bit fet prm.fetChargeBit
    dischargingEnabled := bit fet prm.fetDischargeBit
    cellCount := cellCount
    ntcCount := ntcCount
    tempDC := tRaw.map tempOf }

/-- `DECODE_STATUS` (R135, R137): both length tests come before any field of the record is read. -/
def decodeStatus (prm : Params) (p : Bytes) : Except Fault DecodedRecord :=
  if p.length < fixedLen prm.layout then .ok .shortPayload
  else do
    let ntcCount ← readSlot p prm.layout.ntcCount
    if p.length < lenWithReadings prm.layout ntcCount then .ok .shortPayload
    else (statusRecord prm p).map .status

/-- `DECODE_CELLV` (R165 to R169): `LEN div 2` unsigned big-endian millivolt values from payload offset 0
(entry 25). -/
def decodeCellv (p : Bytes) : Except Fault DecodedRecord :=
  (readRun p 0 .two (p.length / 2)).map .cellVoltages

/-- STATUS (R135): one `status` event, or `decodeError(ShortPayload, raw = F)`. -/
def execStatus (b2 : Byte) (p : Bytes) (s : State) : Result :=
  emitDecoded (decodeStatus s.params p) (frameOf regStatus b2 p) s

/-- CELLV (R165): one `cellVoltages` event. -/
def execCellv (b2 : Byte) (p : Bytes) (s : State) : Result :=
  emitDecoded (decodeCellv p) (frameOf regCellv b2 p) s

/-- UNREC (R126): `decodeError(UnknownRegister, reg, raw = F)`; the payload is not examined. -/
def execUnrec (reg b2 : Byte) (p : Bytes) (s : State) : Result :=
  emitDecoded (.ok (.unrecognized reg)) (frameOf reg b2 p) s

end Sys2Proof.Machine
end

