-- ==== Sys2Proof/Machine/Reassembler.lean ====
section
/-! DEFINITION. The Frame Reassembler (R90 to R99), the pipeline it hands a candidate frame to (R110) and the Frame
Dispatcher (R125): the operations FEED and RESET, the only ones that read or write PB. -/

namespace Sys2Proof.Machine

/-- What the reassembler does with a chunk beside writing PB: nothing, hand on one candidate frame, or raise one error.
There is at most one candidate a chunk (R96). -/
inductive Yield
  | nothing
  | candidate (F : Bytes)
  | error (reason : Reason) (raw : Option Bytes)
deriving DecidableEq, Repr

/-- More than `BUF_CAP` bytes (R97). -/
def overCap (cap : Option Nat) (n : Nat) : Bool :=
  match cap with
  | none => false
  | some m => decide (m < n)

/-- The reassembler's step on the chunk `c = c0 :: cs`: R92 and R93 on an empty buffer, R94 and R95 on a held one, R97
where a store or append would pass BUF_CAP. -/
def reassemble (prm : Params) (pb : PartialBuffer) (c0 : Byte) (cs : Bytes) : PartialBuffer × Yield :=
  match pb with
  | .empty =>
    if boundaryOk (c0 :: cs) then (.empty, .candidate (c0 :: cs))
    else if c0 ≠ startByte ∧ prm.policy = .discard then (.empty, .error .unframed (some (c0 :: cs)))
    else if overCap prm.bufCap (c0 :: cs).length then (.empty, .error .overflow none)
    else (.hold c0 cs, .nothing)
  | .hold b0 bs =>
    if c0 = b0 then (.hold b0 bs, .nothing)
    else if overCap prm.bufCap ((b0 :: bs).length + (c0 :: cs).length) then (.empty, .error .overflow none)
    else if boundaryOk (b0 :: bs ++ c0 :: cs) then (.empty, .candidate (b0 :: bs ++ c0 :: cs))
    else (.hold b0 (bs ++ c0 :: cs), .nothing)

/-- `DISPATCH(F)` (R125): routes a valid frame by all 8 bits of `F[1]` and nothing else, to the instruction's meaning. -/
def dispatch (F : Bytes) (s : State) : Result :=
  orFault (frameFields F) fun f =>
    if f.reg = regStatus then execStatus f.b2 f.payload s
    else if f.reg = regCellv then execCellv f.b2 f.payload s
    else execUnrec f.reg f.b2 f.payload s

/-- `candidate F` (R110): LENCHK, then CHKSUM, then DISPATCH; the first stage that fails ends it
(entry 21). -/
def candidate (F : Bytes) (s : State) : Result :=
  passOrRaise (lengthStage F) F
    (fun s => orFault (checksumStage F) fun verdict => passOrRaise verdict F (dispatch F) s) s

/-- Carries out what the reassembler yielded, PB being already written (R95, R110). -/
def deliver (y : Yield) (s : State) : Result :=
  match y with
  | .nothing => .next s
  | .candidate F => candidate F s
  | .error reason raw => s.raise reason raw

/-- FEED (R90). The empty chunk is refused (R99; entry 5). -/
def execFeed (c : Bytes) (s : State) : Result :=
  match c with
  | [] => .refused .emptyChunk
  | c0 :: cs =>
    let r := reassemble s.params s.pb c0 cs
    deliver r.2 (s.setPb r.1)

/-- RESET (R98): `PB <- EMPTY`, no event. -/
def execReset (s : State) : Result := .next (s.setPb .empty)

end Sys2Proof.Machine
end

