-- ==== Sys2Proof/Machine/Dispatch.lean ====
section
/-! DEFINITION. The meaning of every instruction, one arm a constructor. -/

namespace Sys2Proof.Machine

def exec (i : Instr) (s : State) : Host.Outcome State Fault Refusal :=
  match i with
  | .feed c => Sys2Proof.Machine.execFeed c s
  | .reset => Sys2Proof.Machine.execReset s
  | .lenchk F => Sys2Proof.Machine.execLenchk F s
  | .chksum F => Sys2Proof.Machine.execChksum F s
  | .status b2 p => Sys2Proof.Machine.execStatus b2 p s
  | .cellv b2 p => Sys2Proof.Machine.execCellv b2 p s
  | .unrec reg b2 p => Sys2Proof.Machine.execUnrec reg b2 p s
  | .rdreg3 => Sys2Proof.Machine.execRdreg3 s
  | .rdreg4 => Sys2Proof.Machine.execRdreg4 s

end Sys2Proof.Machine
end

