-- ==== Sys2Proof/Machine/Step.lean ====
section
/-! DEFINITION. One step: the next host transaction runs to completion (R47). -/

namespace Sys2Proof.Machine

/-- One step takes the oldest request from the inbox and executes it. With none waiting nothing happens: "a receiver
that is not being fed does nothing" (spec/60 section 6; R226; entry 2). -/
def step (s : State) : Host.Outcome State Fault Refusal :=
  match s.inbox with
  | [] => .next s
  | r :: rest => exec r.instr { s with inbox := rest }

/-- The request that brings a table word's bytes before the receiver: a format-C constant is read by the host from the
command store (R175), anything else arrives as one chunk (R92). -/
def fetchRequest (bytes : Bytes) : Request :=
  match decode bytes with
  | .ok .rdreg3 => .readCommand03
  | .ok .rdreg4 => .readCommand04
  | _ => .feed bytes

/-- The table word's instruction as the very next one: its frame is the next chunk, on an empty buffer, so that it is
the candidate (R92; entry 14). -/
def State.withFetchWord (s : State) (nbits w : Nat) : State :=
  { s with pb := .empty, inbox := fetchRequest (tableBytes nbits w) :: s.inbox }

end Sys2Proof.Machine
end

