-- ==== Sys2Proof/Machine/Instances.lean ====
section
/-! DEFINITION. Several receivers (R31, R195): one instance a connection, nothing shared, stepped in any interleaving. -/

namespace Sys2Proof.Machine

/-- The receivers of one host, one a connection; an instance has no identifier of its own but its place here (R195;
entry 24). -/
structure Receivers where
  units : List State
deriving DecidableEq, Repr

/-- A new connection: a receiver in the reset state with the parameters the host fixed for it (R195, R216). -/
def Receivers.create (rs : Receivers) (prm : Params) : Receivers :=
  ⟨rs.units ++ [{ State.reset with params := prm }]⟩

/-- One step of the receiver of connection `k`; the others do not move (R195). With no such connection nothing
happens. -/
def Receivers.stepAt (rs : Receivers) (k : Nat) : Host.Outcome Receivers Fault Refusal :=
  match rs.units[k]? with
  | none => .next rs
  | some s =>
    match step s with
    | .next t => .next ⟨rs.units.set k t⟩
    | .fault f => .fault f
    | .refused r => .refused r

end Sys2Proof.Machine
end

