-- ==== Sys2Proof/Machine/Listing.lean ====
section
/-! DEFINITION. The textual notation of programs (R72, R73): a byte string is two-digit upper-case hexadecimal, index 0
first, separated by spaces; a program line is `FEED <byte string>` or `RESET` (entry 19). Texts are lists of
characters. -/

namespace Sys2Proof.Machine

/-- One upper-case hexadecimal digit. -/
def hexDigit (n : Nat) : Char :=
  if n < 10 then Char.ofNat (48 + n) else Char.ofNat (55 + n)

/-- The value of an upper-case hexadecimal digit. -/
def hexValue (c : Char) : Option Nat :=
  if 48 ≤ c.toNat ∧ c.toNat ≤ 57 then some (c.toNat - 48)
  else if 65 ≤ c.toNat ∧ c.toNat ≤ 70 then some (c.toNat - 55)
  else none

/-- A byte as two digits (R8). -/
def showByte (b : Byte) : List Char := [hexDigit (b.toNat / 16), hexDigit (b.toNat % 16)]

/-- A byte string (R72). -/
def showBytes : Bytes → List Char
  | [] => []
  | [b] => showByte b
  | b :: bs => showByte b ++ ' ' :: showBytes bs

/-- The byte of two digits. -/
def readByte (hi lo : Char) : Option Byte :=
  match hexValue hi, hexValue lo with
  | some h, some l => some (BitVec.ofNat 8 (16 * h + l))
  | _, _ => none

/-- The bytes of a byte string; none when the text is no byte string. DESIGN CHOICE: a space stands between two bytes only,
so a text that ends with one is no byte string, and the empty text is the empty sequence (entry 19). -/
def readBytes : List Char → Option Bytes
  | [] => some []
  | [hi, lo] => (readByte hi lo).map fun b => [b]
  | hi :: lo :: ' ' :: next :: rest =>
    match readByte hi lo, readBytes (next :: rest) with
    | some b, some bs => some (b :: bs)
    | _, _ => none
  | _ => none

/-- The operand of a FEED line: a byte string, or one of the pseudo-instructions that stand for one (R73). -/
inductive Operand
  | bytes (b : Bytes)
  | rdreg3
  | rdreg4
  | frame (reg : Byte) (payload : Bytes)
deriving DecidableEq, Repr

/-- The byte string an operand stands for (R73). -/
def Operand.expand : Operand → Bytes
  | .bytes b => b
  | .rdreg3 => cmdRead03
  | .rdreg4 => cmdRead04
  | .frame reg payload => Machine.frame reg payload

/-- A line of a program (R72). -/
inductive Line
  | feed (operand : Operand)
  | reset
deriving DecidableEq, Repr

/-- The host transaction a line is. -/
def Line.request : Line → Request
  | .feed o => .feed o.expand
  | .reset => .reset

/-- The text of a FEED or RESET transaction; a read of a command constant is no program line. -/
def showRequest : Request → Option (List Char)
  | .feed c => some (['F', 'E', 'E', 'D', ' '] ++ showBytes c)
  | .reset => some ['R', 'E', 'S', 'E', 'T']
  | .readCommand03 => none
  | .readCommand04 => none

/-- The transaction a line of text is. -/
def readRequest (text : List Char) : Option Request :=
  match text with
  | 'F' :: 'E' :: 'E' :: 'D' :: ' ' :: rest => (readBytes rest).map .feed
  | ['R', 'E', 'S', 'E', 'T'] => some .reset
  | _ => none

end Sys2Proof.Machine
end

