-- ==== Sys2Proof/Machine/Readout.lean ====
section
/-! DEFINITION. What a record's integers stand for: the exact decimals of R67 and the named fault flags of R145. The
receiver computes none of this; the integers of R152 are its outputs (R153). -/

namespace Sys2Proof.Machine

/-- Pack voltage in V (R138). -/
def StatusRecord.voltage (r : StatusRecord) : ℚ := (r.voltageRaw : ℚ) / 100
/-- Pack current in A, positive = charging (R139). -/
def StatusRecord.current (r : StatusRecord) : ℚ := (r.currentRaw : ℚ) / 100
/-- Balance-capacity in Ah (R140). -/
def StatusRecord.balanceCapacity (r : StatusRecord) : ℚ := (r.balanceCapacityRaw : ℚ) / 100
/-- Full-capacity in Ah (R141). -/
def StatusRecord.fullCapacity (r : StatusRecord) : ℚ := (r.fullCapacityRaw : ℚ) / 100
/-- Firmware version, one fractional digit (R146). -/
def StatusRecord.firmwareVersion (r : StatusRecord) : ℚ := (r.fwRaw : ℚ) / 10
/-- Temperature readings in degrees Celsius (R151). -/
def StatusRecord.temperatures (r : StatusRecord) : List ℚ := r.tempDC.map fun (t : Int) => (t : ℚ) / 10

/-- The fault flags under their names (R145, `FAULT_NAMES` of R7), bit 0 first. -/
def StatusRecord.namedFaults (prm : Params) (r : StatusRecord) : List (String × Bool) := prm.faultNames.toList.zip r.fault

/-- The active-fault set of R135. -/
def StatusRecord.activeFaults (prm : Params) (r : StatusRecord) : List String :=
  ((r.namedFaults prm).filter Prod.snd).map Prod.fst

end Sys2Proof.Machine
end

