-- ==== Sys2Proof/Machine/StatusEncoder.lean ====
section
/-! DEFINITION. The test-only encoder of a status record (R154): its fields laid out by R136 into a payload. It is no part
of the hardware (R74). -/

namespace Sys2Proof.Machine

/-- The two big-endian bytes of a 16-bit value (R42). -/
def bytesOf16 (v : Nat) : Bytes := [BitVec.ofNat 8 (v / 256), BitVec.ofNat 8 v]

/-- The number whose bit `i` is the `i`-th flag; bits above the flags are zero (R154). -/
def wordOfFlags : List Bool → Nat
  | [] => 0
  | b :: bs => b.toNat + 2 * wordOfFlags bs

/-- The packed date of R143. -/
def dateWord (year month day : Nat) : Nat := (year - 2000) * 512 + month * 32 + day

/-- The FET byte with the default bit positions of R148, the other bits zero. -/
def fetByte (charging discharging : Bool) : Nat := wordOfFlags [charging, discharging]

/-- The payload of `23 + 2*ntcCount` bytes that R154 builds from a record. -/
def statusPayload (r : StatusRecord) : Bytes :=
  bytesOf16 r.voltageRaw ++ bytesOf16 (r.currentRaw % 65536).toNat ++ bytesOf16 r.balanceCapacityRaw
    ++ bytesOf16 r.fullCapacityRaw ++ bytesOf16 r.cycles ++ bytesOf16 (dateWord r.year r.month r.day)
    ++ bytesOf16 (wordOfFlags (r.balance.take 16)) ++ bytesOf16 (wordOfFlags (r.balance.drop 16))
    ++ bytesOf16 (wordOfFlags r.fault)
    ++ [BitVec.ofNat 8 r.fwRaw, BitVec.ofNat 8 r.soc,
        BitVec.ofNat 8 (fetByte r.chargingEnabled r.dischargingEnabled), BitVec.ofNat 8 r.cellCount,
        BitVec.ofNat 8 r.ntcCount]
    ++ r.tempDC.flatMap fun t => bytesOf16 (t + 2731).toNat

/-- The values R152's table gives the fields of a record, with the default parameters, and R154's `ntcCount <= 116`. -/
def StatusRecord.inRange (r : StatusRecord) : Bool :=
  decide (r.voltageRaw ≤ 65535) && decide (-32768 ≤ r.currentRaw ∧ r.currentRaw ≤ 32767)
    && decide (r.balanceCapacityRaw ≤ 65535) && decide (r.fullCapacityRaw ≤ 65535) && decide (r.soc ≤ 255)
    && decide (r.cycles ≤ 65535) && decide (2000 ≤ r.year ∧ r.year ≤ 2127) && decide (r.month ≤ 15)
    && decide (r.day ≤ 31) && decide (r.balance.length = min r.cellCount 32) && decide (r.fault.length = 13)
    && decide (r.fwRaw ≤ 255) && decide (r.cellCount ≤ 255) && decide (r.ntcCount ≤ 116)
    && decide (r.tempDC.length = r.ntcCount) && decide (∀ t ∈ r.tempDC, -2731 ≤ t ∧ t ≤ 62804)

end Sys2Proof.Machine
end

