-- ==== Sys2Proof/Safety.lean ====
section
/-! DEFINITION. The terms claims use: the buffer's invariants (R21), what the host owes (R217), runs of several FEEDs
(R100), and the spec's own readings of a frame, written apart from the machine's (R8, R66, R112). -/

namespace Sys2Proof.Machine

/-- The invariants of PB that are not already in its type (R21): (I2) a held buffer fails the boundary test, (I4) under
DISCARD it begins with START_BYTE, (I5) it has at most BUF_CAP bytes. (I1) is `PartialBuffer.hold` itself. -/
def PartialBuffer.inv (prm : Params) : PartialBuffer → Bool
  | .empty => true
  | .hold b0 bs =>
    !boundaryOk (b0 :: bs) && (decide (prm.policy = .hold) || decide (b0 = startByte))
      && !overCap prm.bufCap (b0 :: bs).length

/-- A state whose buffer meets R21. -/
abbrev State.Inv (s : State) : Prop := s.pb.inv s.params = true

/-- The host feeds no empty chunk (R217 (3)). -/
abbrev State.ProperlyFed (s : State) : Prop := Request.feed [] ∉ s.inbox

/-- Several FEEDs in order (R100). -/
def feedAll : List Bytes → State → Result
  | [], s => .next s
  | c :: cs, s =>
    match exec (.feed c) s with
    | .next t => feedAll cs t
    | .fault f => .fault f
    | .refused r => .refused r

/-- The reassembler alone on several chunks: the final PB, and what each chunk yielded. An empty chunk is outside the
contract (R99) and yields nothing here. -/
def reassembleAll (prm : Params) : List Bytes → PartialBuffer → PartialBuffer × List Yield
  | [], pb => (pb, [])
  | [] :: cs, pb =>
    let r := reassembleAll prm cs pb
    (r.1, .nothing :: r.2)
  | (c0 :: ct) :: cs, pb =>
    let y := reassemble prm pb c0 ct
    let r := reassembleAll prm cs y.1
    (r.1, y.2 :: r.2)

/-! ## The spec's readings of a byte sequence -/

/-- `b[i]` as an integer, for an index the rule shows to be in bounds (R8). -/
def u8At (b : Bytes) (i : Nat) : Nat := (b.getD i 0).toNat

/-- `u16be(b, i) = b[i]*256 + b[i+1]` (R11, R66). -/
def u16At (b : Bytes) (i : Nat) : Nat := u8At b i * 256 + u8At b (i + 1)

/-- `BOUNDARY_OK(b)` (R91). -/
abbrev Bounded (b : Bytes) : Prop := b.head? = some (0xDD : Byte) ∧ b.getLast? = some (0x77 : Byte)

/-- `LENGTH_OK(F)` (R111). -/
abbrev LengthConsistent (F : Bytes) : Prop := 7 ≤ F.length ∧ u8At F 3 + 7 = F.length

/-- `sum` of R112: `F[3]` and `F[i]` for `4 <= i <= N-4`. -/
def checkedSum (F : Bytes) : Nat :=
  u8At F 3 + ((List.range (F.length - 7)).map fun j => u8At F (4 + j)).sum

/-- `computed` of R112. -/
def computedSum (F : Bytes) : Nat := (0x10000 - checkedSum F) % 0x10000

/-- `received` of R112. -/
def receivedSum (F : Bytes) : Nat := u16At F (F.length - 3)

/-- A valid frame: complete, and its checksum matches (R25). -/
abbrev Valid (F : Bytes) : Prop := Bounded F ∧ LengthConsistent F ∧ computedSum F = receivedSum F

/-- The payload `P[j] = F[4 + j]`, `0 <= j < N - 7` (R40). -/
def payloadBytes (F : Bytes) : Bytes := (List.range (F.length - 7)).map fun j => F.getD (4 + j) 0

end Sys2Proof.Machine
end

