-- ==== Sys2Proof/Certificates/Slice0/Obligations.lean ====
section
/-! DEFINITION. The statements for the provers. Each docstring says which rules of spec/ it formalises. Every statement
about a state is about every value of the parameters of R7 unless it names the value it assumes. -/

open Sys2Proof Sys2Proof.Machine

/-! ## FEED and RESET -/

/-- R98, the spec's own decision D8: RESET empties the buffer whatever it holds, emits nothing and changes nothing
else; the buffer is then that of a newly created instance. -/
def Obligations.ResetEmptiesTheBuffer : Prop :=
  ∀ s : State, exec .reset s = .next { s with pb := State.reset.pb } ∧ State.reset.pb = .empty ∧ encode .reset = none

/-- R92: on an empty buffer a chunk that passes the boundary test is one candidate, handed to the pipeline whole; the
buffer stays empty and exactly one event comes out. That an error carries the chunk as its raw bytes is R110 and the
spec's own decision D26 (entry 27); that LENCHK rejects the shortest such chunk is R111, a stage of the spec's own
(D3, entry 21). -/
def Obligations.FramedChunkOnEmptyBufferIsACandidate : Prop :=
  ∀ (s : State) (c : Bytes), s.pb = .empty → Bounded c →
    ∃ e, exec (.feed c) s = .next { s with events := s.events ++ [e] } ∧ exec (.feed c) s = candidate c s ∧
      (∀ reason raw, e = .decodeError reason raw → raw = some c) ∧
      (c = [0xDD, 0x77] → e = .decodeError .lengthMismatch (some [0xDD, 0x77]))

/-- R110, R188, LENCHK first by the spec's own decisions D3 and D25: the stages in their order. The first that fails
names the one event; a frame that passes both checks is decoded by its register id. -/
def Obligations.PipelineStagesInOrder : Prop :=
  ∀ (s : State) (c : Bytes), s.pb = .empty → Bounded c →
    ∃ e, exec (.feed c) s = .next { s with events := s.events ++ [e] } ∧
      (¬ LengthConsistent c → e = .decodeError .lengthMismatch (some c)) ∧
      (LengthConsistent c → computedSum c ≠ receivedSum c →
        e = .decodeError (.checksumMismatch (BitVec.ofNat 16 (computedSum c)) (BitVec.ofNat 16 (receivedSum c)))
          (some c)) ∧
      (Valid c → u8At c 1 = 3 →
        exec (.status (c.getD 2 0) (payloadBytes c)) s = .next { s with events := s.events ++ [e] }) ∧
      (Valid c → u8At c 1 = 4 →
        exec (.cellv (c.getD 2 0) (payloadBytes c)) s = .next { s with events := s.events ++ [e] }) ∧
      (Valid c → u8At c 1 ≠ 3 → u8At c 1 ≠ 4 → e = .decodeError (.unknownRegister (c.getD 1 0)) (some c))

/-- R93, the spec's own decision D4: a chunk that fails the boundary test, on an empty buffer: stored when it begins
with START_BYTE; otherwise reported Unframed under DISCARD and stored under HOLD. A store is subject to BUF_CAP. -/
def Obligations.UnframedChunkOnEmptyBuffer : Prop :=
  ∀ (s : State) (c0 : Byte) (cs : Bytes), s.pb = .empty → ¬ Bounded (c0 :: cs) →
    (c0 = 0xDD → (∀ n, s.params.bufCap = some n → (c0 :: cs).length ≤ n) →
      exec (.feed (c0 :: cs)) s = .next { s with pb := .hold c0 cs }) ∧
    (c0 ≠ 0xDD → s.params.policy = .discard →
      exec (.feed (c0 :: cs)) s =
        .next { s with events := s.events ++ [.decodeError .unframed (some (c0 :: cs))] }) ∧
    (c0 ≠ 0xDD → s.params.policy = .hold → (∀ n, s.params.bufCap = some n → (c0 :: cs).length ≤ n) →
      exec (.feed (c0 :: cs)) s = .next { s with pb := .hold c0 cs })

/-- R94: a chunk whose first byte is the held buffer's first byte is dropped whole; that it gives no event is the
spec's own decision D23 (entry 27). -/
def Obligations.SameLeadingByteIsDropped : Prop :=
  ∀ (s : State) (b0 : Byte) (bs cs : Bytes), s.pb = .hold b0 bs → exec (.feed (b0 :: cs)) s = .next s

/-- R95: any other chunk is appended whole; the buffer is then emitted as one candidate and cleared when it passes the
boundary test, and held otherwise. The candidate is the whole buffer. -/
def Obligations.OtherLeadingByteIsAppended : Prop :=
  ∀ (s : State) (b0 c0 : Byte) (bs cs : Bytes), s.pb = .hold b0 bs → c0 ≠ b0 →
    (∀ n, s.params.bufCap = some n → (b0 :: bs).length + (c0 :: cs).length ≤ n) →
    (Bounded (b0 :: bs ++ c0 :: cs) →
      exec (.feed (c0 :: cs)) s = exec (.feed (b0 :: bs ++ c0 :: cs)) { s with pb := .empty } ∧
      ∃ e, exec (.feed (c0 :: cs)) s = .next { s with pb := .empty, events := s.events ++ [e] }) ∧
    (¬ Bounded (b0 :: bs ++ c0 :: cs) →
      exec (.feed (c0 :: cs)) s = .next { s with pb := .hold b0 (bs ++ c0 :: cs) })

/-- R97, the spec's own decision D5: with a finite BUF_CAP a store or append that would pass it empties the buffer,
drops the chunk and reports Overflow without bytes; the boundary test is not applied to the appended buffer. -/
def Obligations.StoreBeyondCapacityOverflows : Prop :=
  ∀ (s : State) (n : Nat) (c0 : Byte) (cs : Bytes), s.params.bufCap = some n →
    (s.pb = .empty → ¬ Bounded (c0 :: cs) → (c0 = 0xDD ∨ s.params.policy = .hold) → n < (c0 :: cs).length →
      exec (.feed (c0 :: cs)) s =
        .next { s with pb := .empty, events := s.events ++ [.decodeError .overflow none] }) ∧
    (∀ b0 bs, s.pb = .hold b0 bs → c0 ≠ b0 → n < (b0 :: bs).length + (c0 :: cs).length →
      exec (.feed (c0 :: cs)) s =
        .next { s with pb := .empty, events := s.events ++ [.decodeError .overflow none] })

/-- R99 ("A model should refuse it"), the spec's own decision D6, entry 5: FEED of the empty chunk has no meaning in
the model. -/
def Obligations.EmptyChunkIsRefused : Prop :=
  ∀ s : State, exec (.feed []) s = .refused .emptyChunk

/-- R90, R190, and R189 which the spec marks as derived: every non-empty chunk completes in every state, with at most
one event; the buffer is empty whenever an event comes out. Everything but the buffer and the event list is unchanged.
-/
def Obligations.FeedCompletesWithAtMostOneEvent : Prop :=
  ∀ (s : State) (c : Bytes), c ≠ [] →
    ∃ pb' evs, exec (.feed c) s = .next { s with pb := pb', events := s.events ++ evs } ∧
      (evs = [] ∨ ∃ e, evs = [e] ∧ pb' = .empty)

/-- R22: the buffer after a FEED and its events depend on the buffer, the chunk and the parameters only, not on what
was emitted, asked or read before. -/
def Obligations.FeedDependsOnBufferChunkAndParameters : Prop :=
  ∀ (s t : State) (c : Bytes), s.pb = t.pb → s.params = t.params → c ≠ [] →
    ∃ pb' evs, exec (.feed c) s = .next { s with pb := pb', events := s.events ++ evs } ∧
      exec (.feed c) t = .next { t with pb := pb', events := t.events ++ evs }

/-- R40 (S1), R45: FEED writes the buffer space only by whole chunks: a buffer held afterwards is the one before, or
it with the chunk at the addresses that follow; every byte that was there reads as before. -/
def Obligations.FeedWritesWholeChunks : Prop :=
  ∀ (s s' : State) (chunk : Bytes) (b0 : Byte) (bs : Bytes), exec (.feed chunk) s = .next s' → s'.pb = .hold b0 bs →
    (∀ a, s'.pb.read a = s.pb.read a) ∨
      (∀ a, s'.pb.read a = (if a < s.pb.length then s.pb.read a else chunk[a - s.pb.length]?))

/-- R101, which the spec marks as derived: a whole frame fed on an empty buffer gives the same one event each time and
leaves the buffer empty; the event depends on the frame and the parameters only. -/
def Obligations.WholeFrameIsIdempotent : Prop :=
  ∀ (prm : Params) (f : Bytes), Bounded f →
    ∃ e, ∀ s : State, s.params = prm → s.pb = .empty →
      exec (.feed f) s = .next { s with events := s.events ++ [e] } ∧
        feedAll [f, f] s = .next { s with events := s.events ++ [e, e] }

/-- R100, which the spec marks as derived: the exact conditions under which a frame cut into chunks is reassembled:
one candidate, equal to the frame, from the last chunk, nothing before it, and an empty buffer. -/
def Obligations.ChunkSizeInvarianceExactly : Prop :=
  ∀ (prm : Params) (f : Bytes) (cs : List Bytes), Bounded f → cs.flatten = f → (∀ c ∈ cs, c ≠ []) → 2 ≤ cs.length →
    (reassembleAll prm cs .empty = (.empty, List.replicate (cs.length - 1) .nothing ++ [.candidate f]) ↔
      (∀ c ∈ cs.tail, c.head? ≠ some 0xDD) ∧ (∀ c ∈ cs.dropLast, c.getLast? ≠ some 0x77) ∧
        (∀ n, prm.bufCap = some n → f.length ≤ n))

/-- R100, which the spec marks as derived: when those conditions hold, the chunked FEEDs leave exactly the state that
the single FEED of the frame leaves. -/
def Obligations.ChunkedFeedEqualsWholeFeed : Prop :=
  ∀ (s : State) (f : Bytes) (cs : List Bytes), s.pb = .empty → Bounded f → cs.flatten = f → (∀ c ∈ cs, c ≠ []) →
    2 ≤ cs.length → (∀ c ∈ cs.tail, c.head? ≠ some 0xDD) → (∀ c ∈ cs.dropLast, c.getLast? ≠ some 0x77) →
    (∀ n, s.params.bufCap = some n → f.length ≤ n) →
    feedAll cs s = exec (.feed f) s

/-! ## Whole-machine rules -/

/-- R30 (the spec's own decisions D8, D9; entry 6), R7: every field of the state after reset. The parameters have
their defaults: DISCARD (D4, entry 9), INF (D5, entry 10), the layout of R136 (PRESUMED, entry 7), the names FAULT0 to
FAULT12 (D11, entry 22), the FET bits 0 and 1 (PRESUMED, entry 8), 32 balance flags (entry 22). The requests, the
events and the command reads are the model's own, empty by its choice (entries 2, 3, 4). -/
def Obligations.ResetStateIsEmptyWithDefaults : Prop :=
  State.reset.pb = .empty ∧ State.reset.params.policy = .discard ∧ State.reset.params.bufCap = none ∧
    State.reset.params.layout = .standard ∧
    State.reset.params.faultNames.toList = ["FAULT0", "FAULT1", "FAULT2", "FAULT3", "FAULT4", "FAULT5", "FAULT6",
      "FAULT7", "FAULT8", "FAULT9", "FAULT10", "FAULT11", "FAULT12"] ∧
    State.reset.params.maxBalanceCells = 32 ∧ State.reset.params.fetChargeBit = 0 ∧
    State.reset.params.fetDischargeBit = 1 ∧ State.reset.inbox = [] ∧ State.reset.events = [] ∧
    State.reset.cmdReads = []

/-- R21 (I2), (I4), (I5), which the spec marks as derived: every step keeps the buffer's invariants. -/
def Obligations.StepKeepsBufferInvariant : Prop :=
  ∀ s s' : State, s.Inv → step s = .next s' → s'.Inv

/-- R21, R30 (derived in the spec): the invariants hold at reset, for every value of the parameters. -/
def Obligations.ResetMeetsBufferInvariant : Prop :=
  ∀ prm : Params, { State.reset with params := prm }.Inv

/-- R21 (I3), which the spec marks as derived: while the buffer stays held, its first byte and every byte after it
stay; bytes are added at the end. -/
def Obligations.HeldBufferOnlyGrowsAtTheEnd : Prop :=
  ∀ (s s' : State) (b0 b0' : Byte) (bs bs' : Bytes), step s = .next s' → s.pb = .hold b0 bs → s'.pb = .hold b0' bs' →
    b0' = b0 ∧ bs <+: bs'

/-- R26, R47, R48: a step changes no parameter, takes the oldest request and no other, and adds at most one event at
the end of the output; the lists of requests and events are the model's own (entries 2, 3). -/
def Obligations.StepFrame : Prop :=
  ∀ s s' : State, step s = .next s' →
    s'.params = s.params ∧ s'.inbox = s.inbox.tail ∧ ∃ evs, s'.events = s.events ++ evs ∧ evs.length ≤ 1

/-- R20, R22, R110: only FEED and RESET write the buffer; the stages, the decoders and the command reads leave it, the
parameters and the pending requests alone, and every buffer address reads as before. -/
def Obligations.OnlyFeedAndResetWriteTheBuffer : Prop :=
  ∀ (i : Instr) (s s' : State), (∀ c, i ≠ .feed c) → i ≠ .reset → exec i s = .next s' →
    s'.pb = s.pb ∧ (∀ a, s'.pb.read a = s.pb.read a) ∧ s'.params = s.params ∧ s'.inbox = s.inbox ∧
      (i ≠ .rdreg3 → i ≠ .rdreg4 → s'.cmdReads = s.cmdReads)

/-- R46: no step reads an index outside the sequence it reads, whatever the state and the layout. -/
def Obligations.StepNeverReadsOutOfBounds : Prop :=
  ∀ (s : State) (f : Fault), step s ≠ .fault f

/-- R90, R99: the only transaction a step refuses is a FEED of the empty chunk (entries 2, 5). -/
def Obligations.OnlyTheEmptyChunkIsRefused : Prop :=
  ∀ (s : State) (r : Refusal),
    step s = .refused r ↔ r = .emptyChunk ∧ ∃ rest, s.inbox = .feed [] :: rest

/-- R47, R226: a step executes the oldest request, and with none waiting nothing changes (the inbox is the model's
own, entry 2). -/
def Obligations.StepRunsTheOldestRequest : Prop :=
  (∀ (s : State) (r : Request) (rest : List Request), s.inbox = r :: rest →
    step s = exec r.instr { s with inbox := rest }) ∧
  (∀ s : State, s.inbox = [] → step s = .next s)

/-- R3 (the spec's own reading, D7), R110, R125: when the chunk that is next, on an empty buffer, decodes to a STATUS,
CELLV or UNREC instruction, the step is that instruction's meaning, the request being taken from the inbox (entry 2).
-/
def Obligations.StepRunsTheDecodedInstruction : Prop :=
  ∀ (s : State) (F : Bytes) (rest : List Request) (i : Instr), s.pb = .empty → s.inbox = .feed F :: rest →
    decode F = .ok i → i ≠ .rdreg3 → i ≠ .rdreg4 → step s = exec i { s with inbox := rest }

/-- The model's own, entry 14: the table word's instruction is the very next one. -/
def Obligations.FetchWordRunsItsInstruction : Prop :=
  ∀ (s : State) (nbits w : Nat) (i : Instr), decodeTableWord nbits w = some i →
    step (s.withFetchWord nbits w) = exec i { s with pb := .empty }

/-- R31, R195 (derived in the spec), entry 24: stepping one receiver changes no other, and the steps of two receivers
can be taken in either order. -/
def Obligations.ReceiversDoNotInterfere : Prop :=
  ∀ (rs rs' : Receivers) (j k : Nat), j ≠ k → rs.stepAt j = .next rs' →
    rs'.units[k]? = rs.units[k]? ∧
      ∀ rs'', rs'.stepAt k = .next rs'' → ∃ rm, rs.stepAt k = .next rm ∧ rm.stepAt j = .next rs''

/-- R186, numbers of the spec's own (decision D21): the reasons have the codes 1 to 6, each its own. -/
def Obligations.ReasonCodes : Prop :=
  (∀ a b, (Reason.checksumMismatch a b).code = 1) ∧ (∀ reg, (Reason.unknownRegister reg).code = 2) ∧
    Reason.shortPayload.code = 3 ∧ Reason.lengthMismatch.code = 4 ∧ Reason.unframed.code = 5 ∧ Reason.overflow.code = 6

/-- R186, reasons of the spec's own (decision D21): with `BUF_CAP = INF` no step reports Overflow, and under HOLD none
reports Unframed. -/
def Obligations.ReasonsExcludedByParameters : Prop :=
  ∀ s s' : State, step s = .next s' →
    (s.params.bufCap = none → ∀ raw, s'.events ≠ s.events ++ [.decodeError .overflow raw]) ∧
    (s.params.policy = .hold → ∀ raw, s'.events ≠ s.events ++ [.decodeError .unframed raw])

/-- R40 (S1), entry 18: the (address, byte) cells of a buffer are exactly the addresses that can be read, with what
they read as. -/
def Obligations.BufferCellsAreWhatCanBeRead : Prop :=
  ∀ (pb : PartialBuffer) (a : Nat) (b : Byte), (a, b) ∈ pb.cells ↔ pb.read a = some b

/-! ## The checks -/

/-- R111 (a stage of the spec's own, decision D3): LENCHK passes a frame of `LEN + 7` bytes and reports any other; it
changes nothing else. No proper beginning of such a frame passes, which the spec marks as derived. -/
def Obligations.LenchkChecksTheLength : Prop :=
  ∀ (F : Bytes) (s : State),
    (LengthConsistent F → exec (.lenchk F) s = .next s) ∧
    (¬ LengthConsistent F →
      exec (.lenchk F) s = .next { s with events := s.events ++ [.decodeError .lengthMismatch (some F)] }) ∧
    (∀ n, LengthConsistent F → n < F.length → ¬ LengthConsistent (F.take n))

/-- R113 on the sum of R112, which leaves B2 out by the spec's own decision D20 (entry 13): CHKSUM passes a
length-consistent frame whose received value is the computed one, and otherwise reports both; the comparison is that
of the two bytes. That a passing stage run by itself changes nothing is entry 20; the frame as raw is D26 (entry 27).
-/
def Obligations.ChksumComparesComputedAndReceived : Prop :=
  ∀ (F : Bytes) (s : State), LengthConsistent F →
    (computedSum F = receivedSum F → exec (.chksum F) s = .next s) ∧
    (computedSum F ≠ receivedSum F →
      exec (.chksum F) s = .next { s with events := s.events ++
        [.decodeError (.checksumMismatch (BitVec.ofNat 16 (computedSum F)) (BitVec.ofNat 16 (receivedSum F)))
          (some F)] }) ∧
    (computedSum F = receivedSum F ↔
      computedSum F / 256 % 256 = u8At F (F.length - 3) ∧ computedSum F % 256 = u8At F (F.length - 2))

/-- R114, which the spec marks as derived: the sum of a length-consistent frame fits 16 bits, its negation 17, and the
frame passes exactly when sum and received value cancel modulo 65536. -/
def Obligations.ChecksumArithmetic : Prop :=
  ∀ (F : Bytes) (s : State), LengthConsistent F →
    checkedSum F ≤ 65280 ∧ 256 ≤ 0x10000 - checkedSum F ∧ 0x10000 - checkedSum F ≤ 65536 ∧
      (exec (.chksum F) s = .next s ↔ (checkedSum F + receivedSum F) % 65536 = 0)

/-- R115 (derived in the spec), R224: of a valid frame, a change of one payload byte or of one checksum byte is
reported by CHKSUM, and a change of REG or B2 passes both checks. -/
def Obligations.ChecksumProtection : Prop :=
  ∀ (F : Bytes) (s : State) (i : Nat) (x : Byte), Valid F → F[i]? ≠ some x →
    (4 ≤ i → i + 2 ≤ F.length →
      ∃ c r, c ≠ r ∧ exec (.chksum (F.set i x)) s =
        .next { s with events := s.events ++ [.decodeError (.checksumMismatch c r) (some (F.set i x))] }) ∧
    ((i = 1 ∨ i = 2) → exec (.lenchk (F.set i x)) s = .next s ∧ exec (.chksum (F.set i x)) s = .next s)

/-- R11, entry 11: CHKSUM on fewer than 4 bytes, which is no frame of R112, stops; with 4 or more every read exists
and it completes. -/
def Obligations.ChksumStopsOnlyBelowFourBytes : Prop :=
  ∀ (F : Bytes) (s : State),
    (F.length < 4 → exec (.chksum F) s = .fault (.readOutOfBounds 3)) ∧
    (4 ≤ F.length → ∃ evs, exec (.chksum F) s = .next { s with events := s.events ++ evs })

/-! ## Encoding -/

/-- R74, which the spec marks as derived: `ENC(reg, b2, p)` is a valid frame of `|p| + 7` bytes with those fields,
both checks accept it, and it is the only valid frame with them. -/
def Obligations.EncoderGivesTheUniqueValidFrame : Prop :=
  ∀ (reg b2 : Byte) (p : Bytes), p.length ≤ 255 →
    (frameOf reg b2 p).length = p.length + 7 ∧ Valid (frameOf reg b2 p) ∧
      (∀ s, exec (.lenchk (frameOf reg b2 p)) s = .next s ∧ exec (.chksum (frameOf reg b2 p)) s = .next s) ∧
      (∀ F, Valid F ∧ F.getD 1 0 = reg ∧ F.getD 2 0 = b2 ∧ payloadBytes F = p ↔ F = frameOf reg b2 p)

/-- Every well-formed instruction that has an encoding decodes from it to itself, with every value of its fields. -/
def Obligations.DecodeOfEncode : Prop :=
  ∀ (i : Instr) (bs : Bytes), i.wf = true → encode i = some bs → decode bs = .ok i

/-- The decoder accepts only encodings: what it reads is well-formed and encodes to the same bytes, so no two
instructions share bytes. -/
def Obligations.EncodeOfDecode : Prop :=
  ∀ (bs : Bytes) (i : Instr), decode bs = .ok i → i.wf = true ∧ encode i = some bs

/-- R68: the row a header selects: START must match, `REG` 03 is STATUS, 04 is CELLV, every other is UNREC, whatever
B2 and LEN are. -/
def Obligations.HeaderSelectsTheRow : Prop :=
  ∀ start reg b2 len : Byte,
    selectRow (headerWord start reg b2 len) =
      if start ≠ 0xDD then none else if reg = 0x03 then some .status else if reg = 0x04 then some .cellv
      else some .unrec

/-- R60, R175: words written out from the spec's formats decode to what they stand for (B of spec/95 1.4, the frames
of 2.4 row 5 and 2.5 row 1, the two constants), and B with a wrong checksum to nothing. The word with B2 = 80 decodes
by the spec's own decisions D2 and D20: B2 is ignored and not summed (entry 13). -/
def Obligations.SpecWordsDecode : Prop :=
  decode [0xDD, 0x04, 0x00, 0x08, 0x0D, 0x05, 0x0D, 0x06, 0x0D, 0x07, 0x0D, 0x08, 0xFF, 0xAA, 0x77] =
      .ok (.cellv 0x00 [0x0D, 0x05, 0x0D, 0x06, 0x0D, 0x07, 0x0D, 0x08]) ∧
    decode [0xDD, 0x03, 0x80, 0x00, 0x00, 0x00, 0x77] = .ok (.status 0x80 []) ∧
    decode [0xDD, 0x05, 0x00, 0x03, 0x01, 0x02, 0x03, 0xFF, 0xF7, 0x77] = .ok (.unrec 0x05 0x00 [0x01, 0x02, 0x03]) ∧
    decode [0xDD, 0xA5, 0x03, 0x00, 0xFF, 0xFD, 0x77] = .ok .rdreg3 ∧
    decode [0xDD, 0xA5, 0x04, 0x00, 0xFF, 0xFC, 0x77] = .ok .rdreg4 ∧
    decode [0xDD, 0x04, 0x00, 0x08, 0x0D, 0x05, 0x0D, 0x06, 0x0D, 0x07, 0x0D, 0x08, 0xFF, 0xAB, 0x77] =
      .error (.checksumMismatch 0xFFAA 0xFFAB)

/-- R72, notation of the spec's own (decision D22, entry 19): reading the text of a program line gives the transaction
it is. -/
def Obligations.ProgramLinesRoundTrip : Prop :=
  ∀ (r : Request) (text : List Char), showRequest r = some text → readRequest text = some r

/-! ## The decoders -/

/-- R137, with the layout of R136 (PRESUMED by the spec, entry 7): both length tests; a payload that passes gives a
record and a short one the failure. No payload of 255 bytes holds 117 readings, which the spec marks as derived. -/
def Obligations.StatusMinimumLength : Prop :=
  ∀ (s : State) (b2 : Byte) (p : Bytes), s.params.layout = .standard →
    (p.length < 23 ∨ p.length < 23 + 2 * u8At p 22 →
      exec (.status b2 p) s =
        .next { s with events := s.events ++ [.decodeError .shortPayload (some (frameOf 0x03 b2 p))] }) ∧
    (23 + 2 * u8At p 22 ≤ p.length →
      ∃ r, exec (.status b2 p) s = .next { s with events := s.events ++ [.status r] }) ∧
    (p.length ≤ 255 → 117 ≤ u8At p 22 →
      exec (.status b2 p) s =
        .next { s with events := s.events ++ [.decodeError .shortPayload (some (frameOf 0x03 b2 p))] })

/-- R138 to R141, where the layout is that of R136 (PRESUMED by the spec, decision D10, entry 7): voltage, current and
the two capacities, and the decimals they stand for (D14, entry 23). -/
def Obligations.StatusQuantities : Prop :=
  ∀ (s : State) (b2 : Byte) (p : Bytes), s.params.layout = .standard → 23 + 2 * u8At p 22 ≤ p.length →
    ∃ r, exec (.status b2 p) s = .next { s with events := s.events ++ [.status r] } ∧
      r.voltageRaw = u16At p 0 ∧ r.voltage = (u16At p 0 : ℚ) / 100 ∧
      r.currentRaw = (if u16At p 2 < 32768 then (u16At p 2 : ℤ) else (u16At p 2 : ℤ) - 65536) ∧
      r.current = (r.currentRaw : ℚ) / 100 ∧
      r.balanceCapacityRaw = u16At p 4 ∧ r.balanceCapacity = (u16At p 4 : ℚ) / 100 ∧
      r.fullCapacityRaw = u16At p 6 ∧ r.fullCapacity = (u16At p 6 : ℚ) / 100

/-- R143 (the spec's own decision D15), R144 (D16), where the layout is that of R136 (PRESUMED, entry 7): the packed
date, unchecked, and the balance flags. -/
def Obligations.StatusDateAndBalance : Prop :=
  ∀ (s : State) (b2 : Byte) (p : Bytes), s.params.layout = .standard → 23 + 2 * u8At p 22 ≤ p.length →
    ∃ r, exec (.status b2 p) s = .next { s with events := s.events ++ [.status r] } ∧
      r.year = 2000 + u16At p 10 / 512 ∧ r.month = u16At p 10 / 32 % 16 ∧ r.day = u16At p 10 % 32 ∧
      r.balance.length = min (u8At p 21) s.params.maxBalanceCells ∧
      ∀ i, i < min (u8At p 21) s.params.maxBalanceCells →
        r.balance[i]? = some (decide ((if i < 16 then u16At p 12 / 2 ^ i else u16At p 14 / 2 ^ (i - 16)) % 2 = 1))

/-- R142, R145 to R150, where the layout is that of R136 (PRESUMED, entry 7), with the spec's own decisions D11
(names), D12 (FET bits), D17 (state of charge) and the cycle count's width from outside the source: the cycle count,
the 13 fault flags under their names, firmware version, state of charge, FET bits and the counts. -/
def Obligations.StatusFlagsAndBytes : Prop :=
  ∀ (s : State) (b2 : Byte) (p : Bytes), s.params.layout = .standard → 23 + 2 * u8At p 22 ≤ p.length →
    ∃ r, exec (.status b2 p) s = .next { s with events := s.events ++ [.status r] } ∧ r.cycles = u16At p 8 ∧
      r.fault.length = 13 ∧ (∀ k, k < 13 → r.fault[k]? = some (decide (u16At p 16 / 2 ^ k % 2 = 1))) ∧
      (r.namedFaults s.params).map Prod.fst = s.params.faultNames.toList ∧
      (r.namedFaults s.params).map Prod.snd = r.fault ∧
      r.fwRaw = u8At p 18 ∧ r.firmwareVersion = (u8At p 18 : ℚ) / 10 ∧ r.soc = u8At p 19 ∧
      r.chargingEnabled = decide (u8At p 20 / 2 ^ s.params.fetChargeBit.val % 2 = 1) ∧
      r.dischargingEnabled = decide (u8At p 20 / 2 ^ s.params.fetDischargeBit.val % 2 = 1) ∧
      r.cellCount = u8At p 21 ∧ r.ntcCount = u8At p 22

/-- R151, the tie upward by the spec's own decision D18 (entry 12), where the layout is that of R136: `ntcCount`
readings, each `t_raw - 2731` tenths of a degree: the source's `t_raw × 0.1 − 273.15` with its tie rounded upward,
that is 0.05 above it. -/
def Obligations.StatusTemperatures : Prop :=
  ∀ (s : State) (b2 : Byte) (p : Bytes), s.params.layout = .standard → 23 + 2 * u8At p 22 ≤ p.length →
    ∃ r, exec (.status b2 p) s = .next { s with events := s.events ++ [.status r] } ∧
      r.tempDC.length = u8At p 22 ∧
      ∀ i, i < u8At p 22 →
        r.tempDC[i]? = some ((u16At p (23 + 2 * i) : ℤ) - 2731) ∧
        r.temperatures[i]? = some ((u16At p (23 + 2 * i) : ℚ) / 10 - 273.15 + 0.05)

/-- R127, R137, R190: whatever the layout and the other parameters, STATUS completes on every payload with one event,
a record or ShortPayload with the frame's bytes, and changes nothing else. -/
def Obligations.StatusCompletesForEveryLayout : Prop :=
  ∀ (s : State) (b2 : Byte) (p : Bytes),
    ∃ e, exec (.status b2 p) s = .next { s with events := s.events ++ [e] } ∧
      ((∃ r, e = .status r) ∨ e = .decodeError .shortPayload (some (frameOf 0x03 b2 p)))

/-- R70 (a), (e), R152, the spec's own decisions D2 and D19 (entries 13, 25), where the layout is that of R136:
neither B2 nor payload bytes past the last reading change the record. -/
def Obligations.StatusIgnoresB2AndSurplus : Prop :=
  ∀ (s : State) (b2 b2' : Byte) (p extra : Bytes), s.params.layout = .standard → 23 + 2 * u8At p 22 ≤ p.length →
    exec (.status b2' (p ++ extra)) s = exec (.status b2 p) s

/-- R70 (b), and (c) by the spec's own decision D12, where the layout is that of R136: bits 15:13 of the fault word
and the six other bits of the FET byte change nothing. -/
def Obligations.StatusIgnoresReservedBits : Prop :=
  ∀ (s : State) (b2 : Byte) (p : Bytes) (hi fet : Byte), s.params.layout = .standard →
    s.params.fetChargeBit = 0 → s.params.fetDischargeBit = 1 → 23 + 2 * u8At p 22 ≤ p.length →
    hi.toNat % 32 = u8At p 16 % 32 → fet.toNat % 4 = u8At p 20 % 4 →
    exec (.status b2 ((p.set 16 hi).set 20 fet)) s = exec (.status b2 p) s

/-- R154, which the spec marks as derived: a record laid out by the test-only encoder and fed as a frame comes back as
the same record. -/
def Obligations.StatusRecordRoundTrip : Prop :=
  ∀ (r : StatusRecord) (s : State), r.inRange = true → s.params.layout = .standard → s.params.maxBalanceCells = 32 →
    s.params.fetChargeBit = 0 → s.params.fetDischargeBit = 1 → s.pb = .empty →
    exec (.feed (frame 0x03 (statusPayload r))) s = .next { s with events := s.events ++ [.status r] }

/-- R166, R167, R168: CELLV gives `LEN div 2` big-endian millivolt values from payload offset 0, and so does every
valid frame with REG 04 that is fed. That an odd last byte is ignored is the spec's own decision D19 (R169, entry 25),
that B2 is D2 (entry 13), and that the decoder cannot fail is R170, which the spec marks as derived. -/
def Obligations.CellVoltages : Prop :=
  (∀ (s : State) (b2 : Byte) (p : Bytes),
    exec (.cellv b2 p) s = .next { s with events := s.events ++
      [.cellVoltages ((List.range (p.length / 2)).map fun i => u16At p (2 * i))] }) ∧
  (∀ (s : State) (F : Bytes), s.pb = .empty → Valid F → u8At F 1 = 4 →
    exec (.feed F) s = .next { s with events := s.events ++
      [.cellVoltages ((List.range (u8At F 3 / 2)).map fun i => u8At F (4 + 2 * i) * 256 + u8At F (5 + 2 * i))] })

/-- R126: an unknown register id is reported with the id and the raw bytes, the payload unexamined; so is every valid
frame with such an id that is fed. -/
def Obligations.UnknownRegisterIsReported : Prop :=
  (∀ (s : State) (reg b2 : Byte) (p : Bytes),
    exec (.unrec reg b2 p) s = .next { s with events := s.events ++
      [.decodeError (.unknownRegister reg) (some (frameOf reg b2 p))] }) ∧
  (∀ (s : State) (F : Bytes), s.pb = .empty → Valid F → u8At F 1 ≠ 3 → u8At F 1 ≠ 4 →
    exec (.feed F) s = .next { s with events := s.events ++
      [.decodeError (.unknownRegister (F.getD 1 0)) (some F)] })

/-- R127: the one event of a valid frame, by its register id. That ShortPayload and UnknownRegister carry the frame as
raw is the spec's own decision D26 (entry 27). -/
def Obligations.EventsOfAValidFrame : Prop :=
  ∀ (s : State) (F : Bytes), s.pb = .empty → Valid F →
    ∃ e, exec (.feed F) s = .next { s with events := s.events ++ [e] } ∧
      (u8At F 1 = 3 → (∃ r, e = .status r) ∨ e = .decodeError .shortPayload (some F)) ∧
      (u8At F 1 = 4 → ∃ mv, e = .cellVoltages mv) ∧
      (u8At F 1 ≠ 3 → u8At F 1 ≠ 4 → ∃ reg, e = .decodeError (.unknownRegister reg) (some F))

/-! ## The Command Catalog -/

/-- R175: a read of a command constant gives the host its 7 bytes and changes nothing else; the list of what has been
read is the model's own (entry 4). -/
def Obligations.CommandConstants : Prop :=
  ∀ s : State,
    exec .rdreg3 s = .next { s with cmdReads := s.cmdReads ++ [[0xDD, 0xA5, 0x03, 0x00, 0xFF, 0xFD, 0x77]] } ∧
    exec .rdreg4 s = .next { s with cmdReads := s.cmdReads ++ [[0xDD, 0xA5, 0x04, 0x00, 0xFF, 0xFC, 0x77]] }

/-- R177, R180, which the spec marks as derived: a command looped back into FEED is a checksum mismatch, its checksum
being the negation of another sum; and no valid frame with REG A5 gives a record. -/
def Obligations.CommandFedBackIsAMismatch : Prop :=
  (∀ s : State, s.pb = .empty →
    exec (.feed cmdRead03) s = .next { s with events := s.events ++
      [.decodeError (.checksumMismatch 0x0000 0xFFFD) (some cmdRead03)] } ∧
    exec (.feed cmdRead04) s = .next { s with events := s.events ++
      [.decodeError (.checksumMismatch 0x0000 0xFFFC) (some cmdRead04)] }) ∧
  (∀ (s : State) (F : Bytes), s.pb = .empty → Valid F → u8At F 1 = 0xA5 →
    exec (.feed F) s = .next { s with events := s.events ++ [.decodeError (.unknownRegister 0xA5) (some F)] })

/-! ## Hazards -/

/-- R219: a chunk that is a proper beginning of a valid frame and ends with 77 completes early, and the frame is lost:
the rest is Unframed under DISCARD and stored under HOLD. -/
def Obligations.EarlyCompletionLosesTheFrame : Prop :=
  ∀ (s : State) (a b : Bytes), s.pb = .empty → Valid (a ++ b) → a.getLast? = some 0x77 → b ≠ [] →
    exec (.feed a) s = .next { s with events := s.events ++ [.decodeError .lengthMismatch (some a)] } ∧
    (b.head? ≠ some 0xDD → s.params.policy = .discard →
      feedAll [a, b] s = .next { s with events := s.events ++
        [.decodeError .lengthMismatch (some a), .decodeError .unframed (some b)] }) ∧
    (b.head? ≠ some 0xDD → s.params.policy = .hold → s.params.bufCap = none →
      feedAll [a, b] s = .next { s with pb := PartialBuffer.ofBytes b, events := s.events ++
        [.decodeError .lengthMismatch (some a)] })

/-- R96, R220: two valid frames in one chunk are both lost with one LengthMismatch; so is a held frame completed by a
chunk that goes on with other bytes. -/
def Obligations.FramesInOneChunkAreNotSeparated : Prop :=
  (∀ (s : State) (f g : Bytes), s.pb = .empty → Valid f → Valid g →
    exec (.feed (f ++ g)) s =
      .next { s with events := s.events ++ [.decodeError .lengthMismatch (some (f ++ g))] }) ∧
  (∀ (s : State) (b0 : Byte) (bs t h : Bytes), s.pb = .hold b0 bs → Valid (b0 :: bs ++ t) → t ≠ [] → h ≠ [] →
    t.head? ≠ some b0 → s.params.bufCap = none →
    exec (.feed (t ++ h)) s =
      if h.getLast? = some 0x77 then
        .next { s with pb := .empty, events := s.events ++
          [.decodeError .lengthMismatch (some (b0 :: bs ++ (t ++ h)))] }
      else .next { s with pb := .hold b0 (bs ++ (t ++ h)) })

/-- R218, R221: while a frame is held, chunks that begin with its first byte, whole frames among them, are dropped for
as long as they come. -/
def Obligations.TruncatedFrameBlocksWholeFrames : Prop :=
  ∀ (s : State) (b0 : Byte) (bs : Bytes) (cs : List Bytes), s.pb = .hold b0 bs → (∀ c ∈ cs, c.head? = some b0) →
    feedAll cs s = .next s

/-- R221, of a FEED: if a FEED ends the stall, its chunk does not begin with the held first byte and either ends with
77 or gives an Overflow. RESET, the third way out of R221, is Obligations.ResetEmptiesTheBuffer. -/
def Obligations.StallEndsOnlyByStopByteOrOverflow : Prop :=
  ∀ (s s' : State) (b0 : Byte) (bs c : Bytes), s.pb = .hold b0 bs → exec (.feed c) s = .next s' → s'.pb = .empty →
    c.head? ≠ some b0 ∧ (c.getLast? = some 0x77 ∨ s'.events = s.events ++ [.decodeError .overflow none])

/-- R222: with no cap a held buffer can grow past any bound, without an event. -/
def Obligations.BufferGrowsWithoutBound : Prop :=
  ∀ (s : State) (b0 : Byte) (bs : Bytes) (n : Nat), s.pb = .hold b0 bs → s.params.bufCap = none →
    ∃ cs bs', (∀ c ∈ cs, c ≠ []) ∧ feedAll cs s = .next { s with pb := .hold b0 bs' } ∧ n ≤ bs'.length

/-- R223: once a buffer that does not begin with START_BYTE is held, and no cap is set, no chunk ever gives an event
again; the buffer only grows. -/
def Obligations.HeldGarbageStallsForGood : Prop :=
  ∀ (s : State) (b0 : Byte) (bs : Bytes) (cs : List Bytes), s.pb = .hold b0 bs → b0 ≠ 0xDD →
    s.params.bufCap = none → (∀ c ∈ cs, c ≠ []) →
    ∃ bs', feedAll cs s = .next { s with pb := .hold b0 (bs ++ bs') }
end

