-- ==== Sys2Proof/Laws/State.lean ====
section
/-! SUPPORT. One lemma a field a state update, so that no proof unfolds a record update. -/

namespace Sys2Proof.Machine

variable (s : State) (pb : PartialBuffer) (e : Event) (b : Bytes)

@[simp] theorem setPb_pb : (s.setPb pb).pb = pb := rfl
@[simp] theorem setPb_params : (s.setPb pb).params = s.params := rfl
@[simp] theorem setPb_inbox : (s.setPb pb).inbox = s.inbox := rfl
@[simp] theorem setPb_events : (s.setPb pb).events = s.events := rfl
@[simp] theorem setPb_cmdReads : (s.setPb pb).cmdReads = s.cmdReads := rfl

@[simp] theorem emit_pb : (s.emit e).pb = s.pb := rfl
@[simp] theorem emit_params : (s.emit e).params = s.params := rfl
@[simp] theorem emit_inbox : (s.emit e).inbox = s.inbox := rfl
@[simp] theorem emit_events : (s.emit e).events = s.events ++ [e] := rfl
@[simp] theorem emit_cmdReads : (s.emit e).cmdReads = s.cmdReads := rfl

@[simp] theorem recordRead_pb : (s.recordRead b).pb = s.pb := rfl
@[simp] theorem recordRead_params : (s.recordRead b).params = s.params := rfl
@[simp] theorem recordRead_inbox : (s.recordRead b).inbox = s.inbox := rfl
@[simp] theorem recordRead_events : (s.recordRead b).events = s.events := rfl
@[simp] theorem recordRead_cmdReads : (s.recordRead b).cmdReads = s.cmdReads ++ [b] := rfl

@[simp] theorem setPb_self : s.setPb s.pb = s := rfl

theorem setPb_eq_of_pb {s : State} {pb : PartialBuffer} (h : s.pb = pb) : s.setPb pb = s := by
  subst h; rfl

@[simp] theorem contents_empty : PartialBuffer.empty.contents = [] := rfl
@[simp] theorem contents_hold (b0 : Byte) (bs : Bytes) : (PartialBuffer.hold b0 bs).contents = b0 :: bs := rfl

end Sys2Proof.Machine
end

