-- ==== Sys2Proof/Laws/Operands.lean ====
section
/-! SUPPORT. What the reads and the field assembly give, in the terms of Safety.lean (`u8At`, `u16At`). -/

namespace Sys2Proof.Machine

/-- The value of a read of either width (R11). -/
def fieldAt (b : Bytes) (addr : Nat) : ReadWidth → Nat
  | .one => u8At b addr
  | .two => u16At b addr

theorem u8At_lt (b : Bytes) (i : Nat) : u8At b i < 256 := (b.getD i 0).isLt

theorem u16At_lt (b : Bytes) (i : Nat) : u16At b i < 65536 := by
  have h0 := u8At_lt b i
  have h1 := u8At_lt b (i + 1)
  unfold u16At
  omega

theorem u8At_append {p e : Bytes} {i : Nat} (h : i < p.length) : u8At (p ++ e) i = u8At p i := by
  simp [u8At, List.getElem?_append, h]

theorem u16At_append {p e : Bytes} {i : Nat} (h : i + 1 < p.length) : u16At (p ++ e) i = u16At p i := by
  rw [u16At, u16At, u8At_append (by omega), u8At_append h]

theorem u8At_set_ne {F : Bytes} {i j : Nat} {x : Byte} (h : i ≠ j) : u8At (F.set i x) j = u8At F j := by
  simp [u8At, h]

theorem u8At_set_eq {F : Bytes} {i : Nat} {x : Byte} (h : i < F.length) : u8At (F.set i x) i = x.toNat := by
  simp [u8At, h]

theorem byteAt_eq {b : Bytes} {i : Nat} (h : i < b.length) : byteAt b i = .ok (b.getD i 0) := by
  simp [byteAt, h]

theorem byteAt_error {b : Bytes} {i : Nat} (h : b.length ≤ i) : byteAt b i = .error (.readOutOfBounds i) := by
  simp [byteAt, h]

/-- A read in bounds gives the big-endian value at the address. -/
theorem memRead_eq {b : Bytes} {addr : Nat} {w : ReadWidth} (h : addr + w.bytes ≤ b.length) :
    memRead b addr w = .ok (fieldAt b addr w) := by
  cases w with
  | one => simp [memRead, byteAt_eq (show addr < b.length from h), Except.map, fieldAt, u8At]
  | two =>
    have h2 : addr + 2 ≤ b.length := h
    simp [memRead, byteAt_eq (show addr < b.length by omega), byteAt_eq (show addr + 1 < b.length by omega), fieldAt,
      u16At, u8At, bind, Except.bind, pure, Except.pure]

theorem readSlot_eq {p : Bytes} {f : FieldSlot} (h : f.stop ≤ p.length) :
    readSlot p f = .ok (fieldAt p f.offset f.width) := memRead_eq h

/-- A run of reads in bounds gives the consecutive values. -/
theorem readRun_eq {b : Bytes} {w : ReadWidth} {n addr : Nat} (h : addr + w.bytes * n ≤ b.length) :
    readRun b addr w n = .ok ((List.range n).map fun i => fieldAt b (addr + w.bytes * i) w) := by
  induction n generalizing addr with
  | zero => rfl
  | succ n ih =>
    have hn : w.bytes * (n + 1) = w.bytes * n + w.bytes := Nat.mul_succ _ _
    have e1 := memRead_eq (b := b) (addr := addr) (w := w) (by omega)
    have e2 := ih (addr := addr + w.bytes) (by omega)
    simp only [readRun, e1, e2, bind, Except.bind, pure, Except.pure, List.range_succ_eq_map, List.map_cons,
      List.map_map]
    congr 3
    funext i
    simp only [Function.comp_apply, Nat.succ_eq_add_one, Nat.mul_succ]
    congr 1
    omega

theorem bits_eq (v hi lo : Nat) : bits v hi lo = v / 2 ^ lo % 2 ^ (hi - lo + 1) := by
  rw [bits, Nat.shiftRight_eq_div_pow]

theorem bit_eq (v n : Nat) : bit v n = decide (v / 2 ^ n % 2 = 1) := by
  simp [bit, bits_eq]

theorem bit_eq_testBit (v n : Nat) : bit v n = v.testBit n := by
  rw [bit_eq, Nat.testBit_eq_decide_div_mod_eq]

/-- A bit below `n` depends on the value modulo `2^n` only. -/
theorem bit_congr {x y n k : Nat} (hk : k < n) (h : x % 2 ^ n = y % 2 ^ n) : bit x k = bit y k := by
  have a (z : Nat) : (z % 2 ^ n).testBit k = z.testBit k := by
    rw [Nat.testBit_mod_two_pow]
    simp [hk]
  rw [bit_eq_testBit, bit_eq_testBit, ← a x, ← a y, h]

theorem sext16_eq (v : Nat) : sext16 v = if v < 32768 then (v : Int) else (v : Int) - 65536 := rfl

/-- Every fixed field ends within the fixed part. -/
theorem stop_le_fixedLen {l : StatusLayout} {f : FieldSlot} (h : f ∈ fixedSlots l) : f.stop ≤ fixedLen l := by
  unfold fixedLen
  generalize fixedSlots l = fs at h
  induction fs with
  | nil => cases h
  | cons g gs ih =>
    rcases List.mem_cons.mp h with rfl | h
    · simp
    · simp only [List.map_cons, List.foldr_cons]
      exact le_trans (ih h) (le_max_right _ _)

@[simp] theorem fixedLen_standard : fixedLen .standard = 23 := by decide

@[simp] theorem lenWithReadings_standard (n : Nat) : lenWithReadings .standard n = 23 + 2 * n := rfl

/-! ## The payload and the checksum of a frame -/

theorem getD_map_range {α : Type} (b : List α) (d : α) : (List.range b.length).map (fun i => b.getD i d) = b := by
  apply List.ext_getElem
  · simp
  · intro i h1 h2
    simp [h2]

theorem payloadOf_eq {F : Bytes} (h : 7 ≤ F.length) : payloadOf F = payloadBytes F := by
  apply List.ext_getElem
  · simp [payloadOf, slice, payloadBytes, idxPayload]; omega
  · intro i h1 h2
    simp only [payloadBytes, List.length_map, List.length_range] at h2
    simp [payloadOf, slice, payloadBytes, idxPayload, show 4 + i < F.length by omega]

theorem length_payloadBytes (F : Bytes) : (payloadBytes F).length = F.length - 7 := by
  simp [payloadBytes]

theorem u8At_payloadBytes {F : Bytes} {i : Nat} (h : i + 7 < F.length) : u8At (payloadBytes F) i = u8At F (4 + i) := by
  simp [u8At, payloadBytes, show i < F.length - 7 by omega, show 4 + i < F.length by omega]

theorem sumBytes_payloadBytes (F : Bytes) :
    sumBytes (payloadBytes F) = ((List.range (F.length - 7)).map fun j => u8At F (4 + j)).sum := by
  simp [sumBytes, payloadBytes, u8At, Function.comp_def]

theorem sumBytes_le (b : Bytes) : sumBytes b ≤ 255 * b.length := by
  induction b with
  | nil => simp [sumBytes]
  | cons x b ih =>
    have := x.isLt
    simp only [sumBytes, List.map_cons, List.sum_cons, List.length_cons] at ih ⊢
    omega

theorem checkedSum_eq (F : Bytes) : checkedSum F = u8At F 3 + sumBytes (payloadBytes F) := by
  rw [checkedSum, sumBytes_payloadBytes]

theorem checkedSum_le {F : Bytes} (h : LengthConsistent F) : checkedSum F ≤ 65280 := by
  have h1 := sumBytes_le (payloadBytes F)
  have h2 := u8At_lt F 3
  have h3 := length_payloadBytes F
  have h4 := checkedSum_eq F
  obtain ⟨h5, h6⟩ := h
  have : F.length - 7 = u8At F 3 := by omega
  rw [h3, this] at h1
  omega

/-- The 16-bit negation of a sum that fits 16 bits. -/
theorem checksumOf_eq {n : Nat} (h : n ≤ 65536) : checksumOf n = BitVec.ofNat 16 ((0x10000 - n) % 0x10000) := by
  have e : (0x10000 - (n : Int)) = ((0x10000 - n : Nat) : Int) := by omega
  rw [checksumOf, e]
  apply BitVec.eq_of_toNat_eq
  rw [BitVec.ofInt_natCast]
  simp

theorem append_eq_ofNat (hi lo : Byte) : hi ++ lo = BitVec.ofNat 16 (hi.toNat * 256 + lo.toNat) := by
  apply BitVec.eq_of_toNat_eq
  have h1 := hi.isLt
  have h2 := lo.isLt
  rw [BitVec.toNat_append, ← Nat.shiftLeft_add_eq_or_of_lt h2, Nat.shiftLeft_eq]
  simp only [BitVec.toNat_ofNat]
  omega

/-- The checksum reads of a length-consistent frame, in integers. -/
theorem checksumPair_eq {F : Bytes} (h : LengthConsistent F) :
    checksumPair F = .ok ⟨BitVec.ofNat 16 (computedSum F), BitVec.ofNat 16 (receivedSum F)⟩ := by
  obtain ⟨h7, h3⟩ := h
  have hs := checkedSum_le ⟨h7, h3⟩
  have e1 := byteAt_eq (b := F) (i := 3) (by omega)
  have e2 := byteAt_eq (b := F) (i := F.length - 3) (by omega)
  have e3 := byteAt_eq (b := F) (i := F.length - 2) (by omega)
  have e4 : checksumOf (u8At F 3 + sumBytes (payloadBytes F)) = BitVec.ofNat 16 (computedSum F) := by
    rw [← checkedSum_eq, checksumOf_eq (by omega), computedSum]
  have e5 : F.length - 3 + 1 = F.length - 2 := by omega
  simp only [checksumPair, idxLen, e1, e2, e3, bind, Except.bind, pure, Except.pure, payloadOf_eq h7, append_eq_ofNat,
    receivedSum, u16At, e5]
  rw [← e4]
  rfl

/-- Every read of CHKSUM exists from 4 bytes on. -/
theorem checksumPair_ok {F : Bytes} (h : 4 ≤ F.length) : ∃ k, checksumPair F = .ok k := by
  have e1 := byteAt_eq (b := F) (i := 3) (by omega)
  have e2 := byteAt_eq (b := F) (i := F.length - 3) (by omega)
  have e3 := byteAt_eq (b := F) (i := F.length - 2) (by omega)
  exact ⟨_, by simp only [checksumPair, idxLen, e1, e2, e3, bind, Except.bind, pure, Except.pure]; rfl⟩

theorem computedSum_lt (F : Bytes) : computedSum F < 65536 := Nat.mod_lt _ (by decide)

theorem receivedSum_lt (F : Bytes) : receivedSum F < 65536 := u16At_lt _ _

theorem ofNat16_eq_iff {a b : Nat} (ha : a < 65536) (hb : b < 65536) :
    BitVec.ofNat 16 a = BitVec.ofNat 16 b ↔ a = b := by
  constructor
  · intro h
    have := congrArg BitVec.toNat h
    simpa [Nat.mod_eq_of_lt ha, Nat.mod_eq_of_lt hb] using this
  · rintro rfl; rfl

/-! ## The frame with given fields -/

theorem length_frameOf (reg b2 : Byte) (p : Bytes) : (frameOf reg b2 p).length = p.length + 7 := by
  simp [frameOf]

theorem frameOf_reg (reg b2 : Byte) (p : Bytes) : (frameOf reg b2 p).getD 1 0 = reg := rfl

theorem frameOf_b2 (reg b2 : Byte) (p : Bytes) : (frameOf reg b2 p).getD 2 0 = b2 := rfl

theorem u8At_frameOf_len {reg b2 : Byte} {p : Bytes} (h : p.length ≤ 255) : u8At (frameOf reg b2 p) 3 = p.length := by
  show (BitVec.ofNat 8 p.length).toNat = p.length
  simp; omega

theorem payloadBytes_frameOf (reg b2 : Byte) (p : Bytes) : payloadBytes (frameOf reg b2 p) = p := by
  rw [← payloadOf_eq (by rw [length_frameOf]; omega)]
  simp [payloadOf, slice, idxPayload, frameOf]

end Sys2Proof.Machine
end

