-- ==== Sys2Proof/Laws/Flags.lean ====
section
/-! SUPPORT. The three predicates of R25 in the spec's terms. -/

namespace Sys2Proof.Machine

theorem boundaryOk_iff (b : Bytes) : boundaryOk b = true ↔ Bounded b := by
  simp only [boundaryOk, Bool.and_eq_true, decide_eq_true_eq]
  exact Iff.rfl

theorem boundaryOk_eq_false (b : Bytes) : boundaryOk b = false ↔ ¬ Bounded b := by
  rw [← boundaryOk_iff, Bool.not_eq_true]

/-- The boundary test of a buffer with a chunk appended reads the buffer's first byte and the chunk's last (R91). -/
theorem bounded_cons_append {b0 : Byte} {bs c : Bytes} (hc : c ≠ []) :
    Bounded (b0 :: bs ++ c) ↔ b0 = 0xDD ∧ c.getLast? = some 0x77 := by
  have : (b0 :: (bs ++ c)).getLast? = c.getLast? := by
    rw [← List.cons_append, List.getLast?_append_of_ne_nil _ hc]
  simp [Bounded, this]

theorem lengthOk_iff (F : Bytes) : lengthOk F = true ↔ LengthConsistent F := by
  unfold lengthOk overhead idxLen
  split
  · simp only [Bool.false_eq_true, false_iff]
    rintro ⟨h, -⟩
    omega
  · rw [List.getElem?_eq_getElem (show 3 < F.length by omega)]
    simp [u8At, LengthConsistent, show 3 < F.length by omega]
    omega

theorem lengthOk_eq_false (F : Bytes) : lengthOk F = false ↔ ¬ LengthConsistent F := by
  rw [← lengthOk_iff, Bool.not_eq_true]

/-- The two bytes are equal exactly when the 16-bit values are (R113). -/
theorem ChecksumPair.ok_iff (k : ChecksumPair) : k.ok = true ↔ k.computed = k.received := by
  simp only [ChecksumPair.ok, Bool.and_eq_true, decide_eq_true_eq]
  constructor
  · rintro ⟨h1, h0⟩
    have e (x : Half) : x = x.extractLsb' 8 8 ++ x.extractLsb' 0 8 := by
      rw [BitVec.extractLsb'_append_extractLsb'_eq_extractLsb' (by rfl)]
      simp
    rw [e k.computed, e k.received, h1, h0]
  · intro h; simp [h]

theorem lengthStage_eq_none {F : Bytes} (h : LengthConsistent F) : lengthStage F = none := by
  simp [lengthStage, (lengthOk_iff F).2 h]

theorem lengthStage_eq_some {F : Bytes} (h : ¬ LengthConsistent F) : lengthStage F = some .lengthMismatch := by
  simp [lengthStage, (lengthOk_eq_false F).2 h]

/-- What CHKSUM finds on a length-consistent frame (R113). -/
theorem checksumStage_eq {F : Bytes} (h : LengthConsistent F) :
    checksumStage F = .ok (if computedSum F = receivedSum F then none
      else some (.checksumMismatch (BitVec.ofNat 16 (computedSum F)) (BitVec.ofNat 16 (receivedSum F)))) := by
  have hk (k : ChecksumPair) : k.ok = decide (k.computed = k.received) := by
    rw [Bool.eq_iff_iff, k.ok_iff, decide_eq_true_eq]
  simp [checksumStage, checksumPair_eq h, Except.map, hk, ofNat16_eq_iff (computedSum_lt F) (receivedSum_lt F)]

/-! ## Valid frames -/

/-- The header and the marker bytes of a valid frame, in the form of R60. -/
theorem bounded_frameOf (reg b2 : Byte) (p : Bytes) : Bounded (frameOf reg b2 p) := by
  refine ⟨rfl, ?_⟩
  simp only [frameOf]
  rw [List.getLast?_append]
  rfl

theorem lengthConsistent_frameOf {reg b2 : Byte} {p : Bytes} (h : p.length ≤ 255) :
    LengthConsistent (frameOf reg b2 p) := by
  rw [LengthConsistent, u8At_frameOf_len h, length_frameOf]
  omega

theorem checkedSum_frameOf {reg b2 : Byte} {p : Bytes} (h : p.length ≤ 255) :
    checkedSum (frameOf reg b2 p) = p.length + sumBytes p := by
  rw [checkedSum_eq, u8At_frameOf_len h, payloadBytes_frameOf]

/-- A frame with the length byte and the payload in place is the header, the payload and the last three bytes. -/
theorem frame_eq_append {F : Bytes} (h : LengthConsistent F) :
    F = [F.getD 0 0, F.getD 1 0, F.getD 2 0, F.getD 3 0] ++ payloadBytes F
      ++ [F.getD (F.length - 3) 0, F.getD (F.length - 2) 0, F.getD (F.length - 1) 0] := by
  obtain ⟨h7, -⟩ := h
  obtain ⟨a0, a1, a2, a3, t, rfl⟩ : ∃ a0 a1 a2 a3 t, F = a0 :: a1 :: a2 :: a3 :: t := by
    match F, h7 with
    | a0 :: a1 :: a2 :: a3 :: t, _ => exact ⟨a0, a1, a2, a3, t, rfl⟩
  rw [← payloadOf_eq h7]
  simp only [List.length_cons] at h7 ⊢
  have ht : t = t.take (t.length - 3) ++ t.drop (t.length - 3) := (List.take_append_drop _ _).symm
  have hd : t.drop (t.length - 3)
      = [t.getD (t.length - 3) 0, t.getD (t.length - 2) 0, t.getD (t.length - 1) 0] := by
    apply List.ext_getElem
    · simp; omega
    · intro i h1 h2
      simp only [List.length_drop] at h1
      have : i = 0 ∨ i = 1 ∨ i = 2 := by omega
      rcases this with rfl | rfl | rfl
      · simp [show t.length - 3 < t.length by omega]
      · simp [show t.length - 2 < t.length by omega, show t.length - 3 + 1 = t.length - 2 by omega]
      · simp [show t.length - 1 < t.length by omega, show t.length - 3 + 2 = t.length - 1 by omega]
  have e3 : t.length + 1 + 1 + 1 + 1 - 3 = t.length - 3 + 4 := by omega
  have e2 : t.length + 1 + 1 + 1 + 1 - 2 = t.length - 2 + 4 := by omega
  have e1 : t.length + 1 + 1 + 1 + 1 - 1 = t.length - 1 + 4 := by omega
  have ep : payloadOf (a0 :: a1 :: a2 :: a3 :: t) = t.take (t.length - 3) := by
    simp [payloadOf, slice, idxPayload]
  rw [ep, e3, e2, e1]
  conv_lhs => rw [ht, hd]
  rfl

theorem getLast?_eq_getD {F : Bytes} (h : F ≠ []) : F.getLast? = some (F.getD (F.length - 1) 0) := by
  have hl := List.length_pos_iff.2 h
  rw [List.getLast?_eq_getElem?, List.getElem?_eq_getElem (by omega)]
  simp [show F.length - 1 < F.length by omega]

/-- A valid frame is the frame with its own fields: no byte of it is free (R74). -/
theorem frameOf_fields {F : Bytes} (h : Valid F) : frameOf (F.getD 1 0) (F.getD 2 0) (payloadBytes F) = F := by
  obtain ⟨⟨hb0, hb1⟩, hl, hc⟩ := h
  obtain ⟨h7, h3⟩ := hl
  have hne : F ≠ [] := by rintro rfl; simp at h7
  have hs := checkedSum_le ⟨h7, h3⟩
  conv_rhs => rw [frame_eq_append ⟨h7, h3⟩]
  have e0 : F.getD 0 0 = startByte := by
    cases F with
    | nil => exact absurd rfl hne
    | cons a t => simpa [startByte] using hb0
  have e1 : F.getD (F.length - 1) 0 = stopByte := by
    rw [getLast?_eq_getD hne] at hb1
    simpa [stopByte] using hb1
  have e3 : BitVec.ofNat 8 (payloadBytes F).length = F.getD 3 0 := by
    rw [length_payloadBytes]
    have : F.length - 7 = (F.getD 3 0).toNat := by
      have : u8At F 3 = (F.getD 3 0).toNat := rfl
      omega
    rw [this]
    simp
  have ec : checksumOf ((payloadBytes F).length + sumBytes (payloadBytes F))
      = F.getD (F.length - 3) 0 ++ F.getD (F.length - 2) 0 := by
    have e4 : (payloadBytes F).length = u8At F 3 := by rw [length_payloadBytes]; omega
    rw [e4, ← checkedSum_eq, checksumOf_eq (by omega), append_eq_ofNat]
    have : computedSum F = receivedSum F := hc
    rw [computedSum, receivedSum, u16At, show F.length - 3 + 1 = F.length - 2 by omega] at this
    rw [this]
    rfl
  have xh (a b : Byte) : (a ++ b).extractLsb' 8 8 = a := by
    have : (a ++ b : BitVec (8 + 8)).extractLsb' 8 8 = a := BitVec.extractLsb'_append_eq_left
    exact this
  have xl (a b : Byte) : (a ++ b).extractLsb' 0 8 = b := by
    have : (a ++ b : BitVec (8 + 8)).extractLsb' 0 8 = b := BitVec.extractLsb'_append_eq_right
    exact this
  rw [frameOf, ec, e3, e0, e1]
  simp only [xh, xl]

end Sys2Proof.Machine
end

