-- ==== Sys2Proof/Laws/Exec.lean ====
section
/-! SUPPORT. One lemma a shared operation of the machine: what it answers, said once. Provers cite these and do not unfold
the operations again. -/

namespace Sys2Proof.Machine

/-! ## The decoders -/

/-- The record of a payload that is long enough, field by field. -/
def recordOf (prm : Params) (p : Bytes) : StatusRecord :=
  let l := prm.layout
  let at' (f : FieldSlot) : Nat := fieldAt p f.offset f.width
  { voltageRaw := at' l.voltage
    currentRaw := sext16 (at' l.current)
    balanceCapacityRaw := at' l.balanceCapacity
    fullCapacityRaw := at' l.fullCapacity
    soc := at' l.soc
    cycles := at' l.cycles
    year := 2000 + bits (at' l.date) 15 9
    month := bits (at' l.date) 8 5
    day := bits (at' l.date) 4 0
    balance := balanceFlags prm.maxBalanceCells (at' l.cellCount) (at' l.balanceLow) (at' l.balanceHigh)
    fault := faultFlags (at' l.faultWord)
    fwRaw := at' l.firmware
    chargingEnabled := bit (at' l.fet) prm.fetChargeBit
    dischargingEnabled := bit (at' l.fet) prm.fetDischargeBit
    cellCount := at' l.cellCount
    ntcCount := at' l.ntcCount
    tempDC := ((List.range (at' l.ntcCount)).map fun i =>
      fieldAt p (l.temperature.offset + l.temperature.width.bytes * i) l.temperature.width).map tempOf }

/-- Whatever the layout, the reads of a record are in bounds once both length tests of R137 have passed. -/
theorem statusRecord_eq {prm : Params} {p : Bytes} (h1 : fixedLen prm.layout ≤ p.length)
    (h2 : lenWithReadings prm.layout (fieldAt p prm.layout.ntcCount.offset prm.layout.ntcCount.width) ≤ p.length) :
    statusRecord prm p = .ok (recordOf prm p) := by
  have r (f : FieldSlot) (hf : f ∈ fixedSlots prm.layout) : readSlot p f = .ok (fieldAt p f.offset f.width) :=
    readSlot_eq (le_trans (stop_le_fixedLen hf) h1)
  have rt := readRun_eq (b := p) (w := prm.layout.temperature.width)
    (n := fieldAt p prm.layout.ntcCount.offset prm.layout.ntcCount.width) (addr := prm.layout.temperature.offset) h2
  simp only [fixedSlots, List.forall_mem_cons] at r
  obtain ⟨r1, r2, r3, r4, r5, r6, r7, r8, r9, r10, r11, r12, r13, r14, -⟩ := r
  simp only [statusRecord, r1, r2, r3, r4, r5, r6, r7, r8, r9, r10, r11, r12, r13, r14, rt, bind, Except.bind, pure,
    Except.pure]
  rfl

/-- DECODE_STATUS (R137): the failure on a short payload, the record otherwise; it never reads out of bounds. -/
theorem decodeStatus_eq (prm : Params) (p : Bytes) :
    decodeStatus prm p = .ok (if p.length < fixedLen prm.layout ∨
      p.length < lenWithReadings prm.layout (fieldAt p prm.layout.ntcCount.offset prm.layout.ntcCount.width)
      then .shortPayload else .status (recordOf prm p)) := by
  unfold decodeStatus
  by_cases h1 : p.length < fixedLen prm.layout
  · simp [h1]
  · have h1' := not_lt.1 h1
    have rn : readSlot p prm.layout.ntcCount
        = .ok (fieldAt p prm.layout.ntcCount.offset prm.layout.ntcCount.width) :=
      readSlot_eq (le_trans (stop_le_fixedLen (by simp [fixedSlots])) h1')
    simp only [h1, if_false, rn, bind, Except.bind, false_or]
    by_cases h2 : p.length < lenWithReadings prm.layout (fieldAt p prm.layout.ntcCount.offset prm.layout.ntcCount.width)
    · simp [h2]
    · simp [h2, statusRecord_eq h1' (not_lt.1 h2), Except.map]

/-- DECODE_CELLV never fails (R170). -/
theorem decodeCellv_eq (p : Bytes) :
    decodeCellv p = .ok (.cellVoltages ((List.range (p.length / 2)).map fun i => u16At p (2 * i))) := by
  have h := readRun_eq (b := p) (w := .two) (n := p.length / 2) (addr := 0)
    (by simp only [ReadWidth.bytes]; omega)
  simp [decodeCellv, h, Except.map, ReadWidth.bytes, fieldAt]

theorem emitDecoded_ok (d : DecodedRecord) (raw : Bytes) (s : State) :
    emitDecoded (.ok d) raw s = .next (s.emit (d.event raw)) := rfl

/-! ## The stages and the pipeline -/

/-- The event a candidate frame gives (R110): the spec's pipeline as one function of the frame and the parameters. -/
def pipelineEvent (prm : Params) (F : Bytes) : Event :=
  if LengthConsistent F then
    if computedSum F = receivedSum F then
      if F.getD 1 0 = regStatus then
        if (payloadBytes F).length < fixedLen prm.layout ∨ (payloadBytes F).length < lenWithReadings prm.layout
            (fieldAt (payloadBytes F) prm.layout.ntcCount.offset prm.layout.ntcCount.width)
          then .decodeError .shortPayload (some F) else .status (recordOf prm (payloadBytes F))
      else if F.getD 1 0 = regCellv then
        .cellVoltages ((List.range ((payloadBytes F).length / 2)).map fun i => u16At (payloadBytes F) (2 * i))
      else .decodeError (.unknownRegister (F.getD 1 0)) (some F)
    else .decodeError (.checksumMismatch (BitVec.ofNat 16 (computedSum F)) (BitVec.ofNat 16 (receivedSum F))) (some F)
  else .decodeError .lengthMismatch (some F)

/-- DISPATCH routes a frame to the meaning of its register id (R125). -/
theorem dispatch_eq {F : Bytes} (h : 7 ≤ F.length) (s : State) :
    dispatch F s = if F.getD 1 0 = regStatus then execStatus (F.getD 2 0) (payloadBytes F) s
      else if F.getD 1 0 = regCellv then execCellv (F.getD 2 0) (payloadBytes F) s
      else execUnrec (F.getD 1 0) (F.getD 2 0) (payloadBytes F) s := by
  have e1 := byteAt_eq (b := F) (i := 1) (by omega)
  have e2 := byteAt_eq (b := F) (i := 2) (by omega)
  simp only [dispatch, frameFields, idxReg, idxB2, e1, e2, bind, Except.bind, pure, Except.pure, orFault,
    payloadOf_eq h]

/-- A frame that passes both checks is dispatched, and its meaning completes. -/
theorem candidate_of_valid {F : Bytes} (hl : LengthConsistent F) (hc : computedSum F = receivedSum F) (s : State) :
    candidate F s = dispatch F s := by
  simp [candidate, passOrRaise, lengthStage_eq_none hl, checksumStage_eq hl, hc, orFault]

/-- A candidate frame always gives exactly one event, and changes nothing else (R110). -/
theorem candidate_eq {F : Bytes} (hb : Bounded F) (s : State) :
    candidate F s = .next (s.emit (pipelineEvent s.params F)) := by
  unfold pipelineEvent
  by_cases hl : LengthConsistent F
  · rw [if_pos hl]
    by_cases hc : computedSum F = receivedSum F
    · rw [if_pos hc, candidate_of_valid hl hc, dispatch_eq hl.1]
      have hf : frameOf (F.getD 1 0) (F.getD 2 0) (payloadBytes F) = F := frameOf_fields ⟨hb, hl, hc⟩
      by_cases h3 : F.getD 1 0 = regStatus
      · rw [h3] at hf
        rw [if_pos h3, if_pos h3, execStatus, decodeStatus_eq, emitDecoded_ok, hf]
        split <;> rfl
      · by_cases h4 : F.getD 1 0 = regCellv
        · rw [if_neg h3, if_neg h3, if_pos h4, if_pos h4, execCellv, decodeCellv_eq, emitDecoded_ok]
          rfl
        · rw [if_neg h3, if_neg h3, if_neg h4, if_neg h4, execUnrec, emitDecoded_ok, hf]
          rfl
    · rw [if_neg hc]
      simp only [candidate, passOrRaise, lengthStage_eq_none hl, checksumStage_eq hl, if_neg hc, orFault, State.raise]
  · rw [if_neg hl]
    simp only [candidate, passOrRaise, lengthStage_eq_some hl, State.raise]

/-! ## FEED -/

/-- The cap allows this many bytes (R97). -/
theorem overCap_eq_false {cap : Option Nat} {n : Nat} : overCap cap n = false ↔ ∀ m, cap = some m → n ≤ m := by
  cases cap <;> simp [overCap]

theorem overCap_eq_true {cap : Option Nat} {n : Nat} : overCap cap n = true ↔ ∃ m, cap = some m ∧ m < n := by
  cases cap <;> simp [overCap]

/-- Everything the reassembler can do with a chunk (R92 to R97). -/
theorem reassemble_cases (prm : Params) (pb : PartialBuffer) (c0 : Byte) (cs : Bytes) :
    (pb = .empty ∧ Bounded (c0 :: cs) ∧ reassemble prm pb c0 cs = (.empty, .candidate (c0 :: cs))) ∨
    (pb = .empty ∧ ¬ Bounded (c0 :: cs) ∧ c0 ≠ startByte ∧ prm.policy = .discard ∧
      reassemble prm pb c0 cs = (.empty, .error .unframed (some (c0 :: cs)))) ∨
    (pb = .empty ∧ ¬ Bounded (c0 :: cs) ∧ (c0 = startByte ∨ prm.policy = .hold) ∧
      overCap prm.bufCap (c0 :: cs).length = true ∧ reassemble prm pb c0 cs = (.empty, .error .overflow none)) ∨
    (pb = .empty ∧ ¬ Bounded (c0 :: cs) ∧ (c0 = startByte ∨ prm.policy = .hold) ∧
      overCap prm.bufCap (c0 :: cs).length = false ∧ reassemble prm pb c0 cs = (.hold c0 cs, .nothing)) ∨
    (∃ b0 bs, pb = .hold b0 bs ∧ c0 = b0 ∧ reassemble prm pb c0 cs = (.hold b0 bs, .nothing)) ∨
    (∃ b0 bs, pb = .hold b0 bs ∧ c0 ≠ b0 ∧ overCap prm.bufCap ((b0 :: bs).length + (c0 :: cs).length) = true ∧
      reassemble prm pb c0 cs = (.empty, .error .overflow none)) ∨
    (∃ b0 bs, pb = .hold b0 bs ∧ c0 ≠ b0 ∧ overCap prm.bufCap ((b0 :: bs).length + (c0 :: cs).length) = false ∧
      Bounded (b0 :: bs ++ c0 :: cs) ∧ reassemble prm pb c0 cs = (.empty, .candidate (b0 :: bs ++ c0 :: cs))) ∨
    (∃ b0 bs, pb = .hold b0 bs ∧ c0 ≠ b0 ∧ overCap prm.bufCap ((b0 :: bs).length + (c0 :: cs).length) = false ∧
      ¬ Bounded (b0 :: bs ++ c0 :: cs) ∧ reassemble prm pb c0 cs = (.hold b0 (bs ++ c0 :: cs), .nothing)) := by
  cases pb with
  | empty =>
    by_cases hb : boundaryOk (c0 :: cs) = true
    · exact .inl ⟨rfl, (boundaryOk_iff _).1 hb, by simp [reassemble, hb]⟩
    · have hn : ¬ Bounded (c0 :: cs) := fun h => hb ((boundaryOk_iff _).2 h)
      by_cases hu : c0 ≠ startByte ∧ prm.policy = .discard
      · exact .inr (.inl ⟨rfl, hn, hu.1, hu.2, by simp [reassemble, hb, hu.1, hu.2]⟩)
      · have hu' : c0 = startByte ∨ prm.policy = .hold := by
          by_cases h : c0 = startByte
          · exact .inl h
          · right
            cases hp : prm.policy
            · exact absurd ⟨h, hp⟩ hu
            · rfl
        cases ho : overCap prm.bufCap (c0 :: cs).length
        · exact .inr (.inr (.inr (.inl ⟨rfl, hn, hu', rfl, by simp only [reassemble, hb, hu, ho]; rfl⟩)))
        · exact .inr (.inr (.inl ⟨rfl, hn, hu', rfl, by simp only [reassemble, hb, hu, ho]; rfl⟩))
  | hold b0 bs =>
    refine .inr (.inr (.inr (.inr ?_)))
    by_cases hc : c0 = b0
    · exact .inl ⟨b0, bs, rfl, hc, by simp [reassemble, hc]⟩
    · refine .inr ?_
      cases ho : overCap prm.bufCap ((b0 :: bs).length + (c0 :: cs).length)
      · refine .inr ?_
        by_cases hb : boundaryOk (b0 :: bs ++ c0 :: cs) = true
        · exact .inl ⟨b0, bs, rfl, hc, ho, (boundaryOk_iff _).1 hb, by simp only [reassemble, hc, ho, hb]; rfl⟩
        · exact .inr ⟨b0, bs, rfl, hc, ho, fun h => hb ((boundaryOk_iff _).2 h),
            by simp only [reassemble, hc, ho, hb]; rfl⟩
      · exact .inl ⟨b0, bs, rfl, hc, ho, by simp only [reassemble, hc, ho]; rfl⟩

/-- The events of what the reassembler yielded. -/
def Yield.events (prm : Params) : Yield → List Event
  | .nothing => []
  | .candidate F => [pipelineEvent prm F]
  | .error reason raw => [.decodeError reason raw]

/-- A candidate the reassembler hands on passed the boundary test (R91). -/
theorem reassemble_candidate {prm : Params} {pb : PartialBuffer} {c0 : Byte} {cs F : Bytes}
    (h : (reassemble prm pb c0 cs).2 = .candidate F) : Bounded F := by
  rcases reassemble_cases prm pb c0 cs with ⟨-, hb, e⟩ | ⟨-, -, -, -, e⟩ | ⟨-, -, -, -, e⟩ | ⟨-, -, -, -, e⟩ |
      ⟨_, _, -, -, e⟩ | ⟨_, _, -, -, -, e⟩ | ⟨_, _, -, -, -, hb, e⟩ | ⟨_, _, -, -, -, -, e⟩ <;>
    rw [e] at h <;> cases h <;> exact hb

/-- The buffer is empty whenever the reassembler yields something (R190). -/
theorem reassemble_pb_empty {prm : Params} {pb : PartialBuffer} {c0 : Byte} {cs : Bytes}
    (h : (reassemble prm pb c0 cs).2 ≠ .nothing) : (reassemble prm pb c0 cs).1 = .empty := by
  rcases reassemble_cases prm pb c0 cs with ⟨-, -, e⟩ | ⟨-, -, -, -, e⟩ | ⟨-, -, -, -, e⟩ | ⟨-, -, -, -, e⟩ |
      ⟨_, _, -, -, e⟩ | ⟨_, _, -, -, -, e⟩ | ⟨_, _, -, -, -, -, e⟩ | ⟨_, _, -, -, -, -, e⟩ <;>
    rw [e] at h ⊢ <;> first | rfl | exact absurd rfl h

/-- FEED of a non-empty chunk: the reassembler's buffer, and the events of what it yielded. -/
theorem execFeed_eq (c0 : Byte) (cs : Bytes) (s : State) :
    execFeed (c0 :: cs) s = .next { s with
      pb := (reassemble s.params s.pb c0 cs).1,
      events := s.events ++ ((reassemble s.params s.pb c0 cs).2).events s.params } := by
  have h := @reassemble_candidate s.params s.pb c0 cs
  simp only [execFeed]
  generalize hr : reassemble s.params s.pb c0 cs = r at *
  obtain ⟨pb', y⟩ := r
  cases y with
  | nothing => simp [deliver, Yield.events, State.setPb]
  | candidate F => rw [deliver, candidate_eq (h rfl)]; rfl
  | error reason raw => rfl

end Sys2Proof.Machine
end

