-- ==== Sys2Proof/Laws/Memory.lean ====
section
/-! SUPPORT. The buffer space as memory: its cells are canonical for every buffer, so every operation that writes the
buffer keeps the form, and the reset state has it. -/

namespace Sys2Proof.Machine

/-- The cells of a buffer have the addresses `0 .. |b|-1` (R40). -/
theorem cells_wf (pb : PartialBuffer) : Memory.wf pb.cells := by
  simp [Memory.wf, PartialBuffer.cells, PartialBuffer.length, List.map_fst_zip]

theorem setPb_cells_wf (s : State) (pb : PartialBuffer) : Memory.wf (s.setPb pb).pb.cells := cells_wf _

theorem emit_cells (s : State) (e : Event) : (s.emit e).pb.cells = s.pb.cells := rfl

theorem reset_cells_wf : Memory.wf State.reset.pb.cells := cells_wf _

theorem read_ofBytes (b : Bytes) (a : Nat) : (PartialBuffer.ofBytes b).read a = b[a]? := by
  cases b <;> rfl

/-- Bytes before the write index are what they were; the appended chunk follows (R40, R95). -/
theorem read_append (b0 : Byte) (bs tail : Bytes) (a : Nat) :
    (PartialBuffer.hold b0 (bs ++ tail)).read a =
      if a < (PartialBuffer.hold b0 bs).length then (PartialBuffer.hold b0 bs).read a
      else tail[a - (PartialBuffer.hold b0 bs).length]? := by
  simp only [PartialBuffer.read, PartialBuffer.length, contents_hold, ← List.cons_append]
  exact List.getElem?_append

end Sys2Proof.Machine
end

