-- ==== Sys2Proof/Laws/PerInstr.lean ====
section
/-! SUPPORT. The family `Framed`, one lemma a constructor: an instruction's encoding, where it has one, is a frame of
either format: START first, STOP last, at least 7 bytes (R62, R63). -/

namespace Sys2Proof.Laws.Framed

open Sys2Proof.Machine

/-- The encoding of `i` begins with START_BYTE, ends with STOP_BYTE and holds the 7 bytes of overhead. -/
def Statement (i : Instr) : Prop := ∀ bs, encode i = some bs → Bounded bs ∧ 7 ≤ bs.length

theorem of_frameOf {i : Instr} {reg b2 : Byte} {p : Bytes} (h : encode i = some (frameOf reg b2 p)) : Statement i := by
  intro bs hb
  obtain rfl : frameOf reg b2 p = bs := Option.some.inj (h.symm.trans hb)
  exact ⟨bounded_frameOf _ _ _, by rw [length_frameOf]; omega⟩

theorem feed (c : Bytes) : Statement (.feed c) := by intro bs h; cases h
theorem reset : Statement .reset := by intro bs h; cases h
theorem lenchk (F : Bytes) : Statement (.lenchk F) := by intro bs h; cases h
theorem chksum (F : Bytes) : Statement (.chksum F) := by intro bs h; cases h
theorem status (b2 : Byte) (p : Bytes) : Statement (.status b2 p) := of_frameOf rfl
theorem cellv (b2 : Byte) (p : Bytes) : Statement (.cellv b2 p) := of_frameOf rfl
theorem unrec (reg b2 : Byte) (p : Bytes) : Statement (.unrec reg b2 p) := of_frameOf rfl
theorem rdreg3 : Statement .rdreg3 := by intro bs h; cases h; decide
theorem rdreg4 : Statement .rdreg4 := by intro bs h; cases h; decide

end Sys2Proof.Laws.Framed
end

