-- ==== Sys2Proof/Laws/Step.lean ====
section
/-! SUPPORT. What one instruction and one step can do, said once: the inversions that a proof about every instruction or
every step cites, and the record of the layout of R136. -/

namespace Sys2Proof.Machine

/-! ## Instructions -/

theorem exec_feed_cons (c0 : Byte) (cs : Bytes) (s : State) :
    exec (.feed (c0 :: cs)) s = .next { s with
      pb := (reassemble s.params s.pb c0 cs).1,
      events := s.events ++ ((reassemble s.params s.pb c0 cs).2).events s.params } := execFeed_eq c0 cs s

/-- A framed chunk on an empty buffer goes through the pipeline at once (R92). -/
theorem exec_feed_of_bounded {s : State} {c : Bytes} (he : s.pb = .empty) (hb : Bounded c) :
    exec (.feed c) s = .next (s.emit (pipelineEvent s.params c)) := by
  cases c with
  | nil => simp [Bounded] at hb
  | cons c0 cs =>
    have hr : reassemble s.params s.pb c0 cs = (.empty, .candidate (c0 :: cs)) := by
      rw [he]
      simp [reassemble, (boundaryOk_iff _).2 hb]
    rw [exec_feed_cons, hr]
    simp [Yield.events, State.emit, ← he]

/-- CHKSUM on a length-consistent frame (R113). -/
theorem execChksum_eq {F : Bytes} (s : State) (h : LengthConsistent F) :
    execChksum F s = if computedSum F = receivedSum F then .next s else .next (s.emit (.decodeError
      (.checksumMismatch (BitVec.ofNat 16 (computedSum F)) (BitVec.ofNat 16 (receivedSum F))) (some F))) := by
  rw [execChksum, checksumStage_eq h]
  split <;> rfl

/-- The number of events of one chunk (R189). -/
theorem Yield.length_events_le (prm : Params) (y : Yield) : (y.events prm).length ≤ 1 := by
  cases y <;> simp [Yield.events]

/-- Everything a completed instruction can have done: the parameters and the requests stand, at most one event is added,
and the buffer is as before unless the instruction is RESET or FEED. -/
theorem exec_cases {i : Instr} {s s' : State} (h : exec i s = .next s') :
    s'.params = s.params ∧ s'.inbox = s.inbox ∧ (∃ evs, s'.events = s.events ++ evs ∧ evs.length ≤ 1) ∧
      (s'.pb = s.pb ∨ i = .reset ∧ s'.pb = .empty ∨
        ∃ c0 cs, i = .feed (c0 :: cs) ∧ s'.pb = (reassemble s.params s.pb c0 cs).1) := by
  cases i with
  | feed c =>
    cases c with
    | nil => cases h
    | cons c0 cs =>
      rw [exec_feed_cons] at h
      cases h
      exact ⟨rfl, rfl, ⟨_, rfl, Yield.length_events_le _ _⟩, .inr (.inr ⟨c0, cs, rfl, rfl⟩)⟩
  | reset => cases h; exact ⟨rfl, rfl, ⟨[], by simp⟩, .inr (.inl ⟨rfl, rfl⟩)⟩
  | lenchk F =>
    have h : execLenchk F s = .next s' := h
    rw [execLenchk] at h
    by_cases hl : LengthConsistent F
    · rw [lengthStage_eq_none hl] at h; cases h; exact ⟨rfl, rfl, ⟨[], by simp⟩, .inl rfl⟩
    · rw [lengthStage_eq_some hl] at h; cases h; exact ⟨rfl, rfl, ⟨_, rfl, by simp⟩, .inl rfl⟩
  | chksum F =>
    have h : execChksum F s = .next s' := h
    rw [execChksum, checksumStage] at h
    cases hk : checksumPair F with
    | error f => rw [hk] at h; cases h
    | ok k =>
      rw [hk] at h
      simp only [Except.map, orFault] at h
      split at h <;> cases h
      · exact ⟨rfl, rfl, ⟨[], by simp⟩, .inl rfl⟩
      · exact ⟨rfl, rfl, ⟨_, rfl, by simp⟩, .inl rfl⟩
  | status b2 p =>
    have h : execStatus b2 p s = .next s' := h
    rw [execStatus, decodeStatus_eq, emitDecoded_ok] at h
    cases h; exact ⟨rfl, rfl, ⟨_, rfl, by simp⟩, .inl rfl⟩
  | cellv b2 p =>
    have h : execCellv b2 p s = .next s' := h
    rw [execCellv, decodeCellv_eq, emitDecoded_ok] at h
    cases h; exact ⟨rfl, rfl, ⟨_, rfl, by simp⟩, .inl rfl⟩
  | unrec reg b2 p => cases h; exact ⟨rfl, rfl, ⟨_, rfl, by simp⟩, .inl rfl⟩
  | rdreg3 => cases h; exact ⟨rfl, rfl, ⟨[], by simp⟩, .inl rfl⟩
  | rdreg4 => cases h; exact ⟨rfl, rfl, ⟨[], by simp⟩, .inl rfl⟩

/-- What a completed step was: nothing waiting, or the oldest request executed. -/
theorem step_cases {s s' : State} (h : step s = .next s') :
    (s.inbox = [] ∧ s' = s) ∨
      ∃ r rest, s.inbox = r :: rest ∧ exec r.instr { s with inbox := rest } = .next s' := by
  unfold step at h
  split at h
  · cases h; exact .inl ⟨by assumption, rfl⟩
  · exact .inr ⟨_, _, by assumption, h⟩

/-! ## The status record with the layout of R136 -/

theorem recordOf_standard {prm : Params} {p : Bytes} (h : prm.layout = .standard) : recordOf prm p =
    { voltageRaw := u16At p 0
      currentRaw := sext16 (u16At p 2)
      balanceCapacityRaw := u16At p 4
      fullCapacityRaw := u16At p 6
      soc := u8At p 19
      cycles := u16At p 8
      year := 2000 + bits (u16At p 10) 15 9
      month := bits (u16At p 10) 8 5
      day := bits (u16At p 10) 4 0
      balance := balanceFlags prm.maxBalanceCells (u8At p 21) (u16At p 12) (u16At p 14)
      fault := faultFlags (u16At p 16)
      fwRaw := u8At p 18
      chargingEnabled := bit (u8At p 20) prm.fetChargeBit
      dischargingEnabled := bit (u8At p 20) prm.fetDischargeBit
      cellCount := u8At p 21
      ntcCount := u8At p 22
      tempDC := ((List.range (u8At p 22)).map fun i => u16At p (23 + 2 * i)).map tempOf } := by
  unfold recordOf
  rw [h]
  rfl

theorem fieldAt_ntcCount {prm : Params} {p : Bytes} (h : prm.layout = .standard) :
    fieldAt p prm.layout.ntcCount.offset prm.layout.ntcCount.width = u8At p 22 := by
  rw [h]
  rfl

end Sys2Proof.Machine
end

