-- ==== Sys2Proof/Tests/Slice0.lean ====
section
/-! SUPPORT. Tests, their expected results from spec/95_test_vectors.md and the rules named, and for every obligation
with hypotheses a witness: a concrete state and operands that meet them together, clause by clause. -/

namespace Sys2Proof.Tests

open Sys2Proof Sys2Proof.Machine

/-! ## Bytes and states of spec/95 -/

/-- Frame B (spec/95, Scenario B). -/
def frameB : Bytes := [0xDD, 0x04, 0x00, 0x08, 0x0D, 0x05, 0x0D, 0x06, 0x0D, 0x07, 0x0D, 0x08, 0xFF, 0xAA, 0x77]

/-- The payload of V1 (2.4). -/
def payloadV1 : Bytes :=
  [0x0C, 0x80, 0xFF, 0xC8, 0x0B, 0xB8, 0x0B, 0xB8, 0x00, 0x10, 0x23, 0x05, 0x00, 0x03, 0x00, 0x00, 0x10, 0x01,
    0x14, 0x64, 0x03, 0x04, 0x02, 0x0B, 0xA5, 0x0B, 0x9B]

/-- The frame V1 (2.4), its header and checksum as the spec writes them. -/
def frameV1 : Bytes := [0xDD, 0x03, 0x00, 0x1B] ++ payloadV1 ++ [0xF9, 0xE9, 0x77]

/-- The record of V1 (2.4). -/
def recordV1 : StatusRecord where
  voltageRaw := 3200
  currentRaw := -56
  balanceCapacityRaw := 3000
  fullCapacityRaw := 3000
  soc := 100
  cycles := 16
  year := 2017
  month := 8
  day := 5
  balance := [true, true, false, false]
  fault := [true, false, false, false, false, false, false, false, false, false, false, false, true]
  fwRaw := 20
  chargingEnabled := true
  dischargingEnabled := true
  cellCount := 4
  ntcCount := 2
  tempDC := [250, 240]

/-- The payload of V3 (2.4). -/
def payloadV3 : Bytes :=
  [0xFF, 0xFF, 0x80, 0x00, 0x00, 0x00, 0xFF, 0xFF, 0x00, 0x00, 0xFF, 0xFF, 0xFF, 0xFF, 0xFF, 0xFF, 0xFF, 0xFF,
    0x00, 0x00, 0xFC, 0x28, 0x03, 0x00, 0x00, 0x0A, 0xAB, 0xFF, 0xFF]

/-- Frame D in its five chunks (1.6). -/
def chunksD : List Bytes :=
  [[0xDD, 0x04, 0x00, 0x0D], [0x0C, 0xE4, 0x0C, 0xE5], [0x0C, 0xE6, 0x0C, 0xE7], [0x0C, 0xE8, 0x0C, 0xE9],
    [0x00, 0xFA, 0x44, 0x77]]

/-- A held buffer, and the parameters of a row of 2.1. -/
def held (b0 : Byte) (bs : Bytes) : State := { State.reset with pb := .hold b0 bs }
def withCap (n : Nat) (s : State) : State := { s with params := { s.params with bufCap := some n } }
def underHold (s : State) : State := { s with params := { s.params with policy := .hold } }
def asked (rs : List Request) (s : State) : State := { s with inbox := rs }
def gave (es : List Event) (s : State) : State := { s with events := s.events ++ es }

/-- The cap's condition as the obligations write it. -/
theorem cap_of_some {s : State} {k : Nat} (n : Nat) (hs : s.params.bufCap = some n) (h : k ≤ n) :
    ∀ m, s.params.bufCap = some m → k ≤ m := by
  intro m hm
  rw [hs] at hm
  cases hm
  exact h

/-! ## WellFormed: an ill-formed term for each check -/

set_option maxRecDepth 8192 in
theorem test_wf_refuses :
    (Instr.feed []).wf = false ∧ (Instr.lenchk [0xDD]).wf = false ∧
      (Instr.chksum [0xDD, 0x04, 0x00, 0x01, 0x00, 0x00, 0x77]).wf = false ∧
      (Instr.status 0 (List.replicate 256 0)).wf = false ∧ (Instr.cellv 0 (List.replicate 256 0)).wf = false ∧
      (Instr.unrec 0x03 0 []).wf = false ∧ (Instr.unrec 0x04 0 []).wf = false ∧
      (Instr.unrec 0x05 0 (List.replicate 256 0)).wf = false := by decide

theorem test_wf_accepts :
    (Instr.feed [0x77]).wf = true ∧ Instr.reset.wf = true ∧ (Instr.lenchk [0xDD, 0x77]).wf = true ∧
      (Instr.chksum frameB).wf = true ∧ (Instr.unrec 0xA5 0 []).wf = true := by decide

/-! ## Decoding: words written out from R60, R75, R175 -/

theorem test_decode_status : decode frameV1 = .ok (.status 0x00 payloadV1) := by decide

theorem test_decode_cellv : decode [0xDD, 0x04, 0x80, 0x02, 0x0D, 0x05, 0xFF, 0xEC, 0x77] = .ok (.cellv 0x80 [0x0D, 0x05]) := by
  decide

theorem test_decode_unrec : decode [0xDD, 0xA5, 0x00, 0x01, 0x01, 0xFF, 0xFE, 0x77] = .ok (.unrec 0xA5 0x00 [0x01]) := by
  decide

theorem test_decode_commands :
    decode [0xDD, 0xA5, 0x03, 0x00, 0xFF, 0xFD, 0x77] = .ok .rdreg3 ∧
      decode [0xDD, 0xA5, 0x04, 0x00, 0xFF, 0xFC, 0x77] = .ok .rdreg4 := by decide

theorem test_decode_rejects :
    decode [] = .error .lengthMismatch ∧ decode [0xDD, 0x04, 0x00, 0x01, 0x00, 0x00, 0x77] = .error .lengthMismatch ∧
      decode [0xDE, 0x04, 0x00, 0x00, 0x00, 0x00, 0x77] = .error .noStartByte ∧
      decode [0xDD, 0x04, 0x00, 0x00, 0x00, 0x00, 0x78] = .error .noStopByte ∧
      decode [0xDD, 0x04, 0x00, 0x00, 0xFF, 0xFF, 0x77] = .error (.checksumMismatch 0x0000 0xFFFF) := by decide

theorem test_table_words :
    decodeTableWord 32 0xDD030000 = some (.status 0 []) ∧ decodeTableWord 32 0xDD04FF02 = some (.cellv 0xFF [0, 0]) ∧
      decodeTableWord 32 0xDD770000 = some (.unrec 0x77 0 []) ∧ decodeTableWord 56 0xDDA50300FFFD77 = some .rdreg3 ∧
      decodeTableWord 56 0xDDA50400FFFC77 = some .rdreg4 ∧ decodeTableWord 32 0x00030000 = none := by decide

set_option maxRecDepth 65536 in
theorem test_table_word_longest : decodeTableWord 32 0xDD0400FF = some (.cellv 0 (List.replicate 255 0)) := by decide

/-! ## Instructions, one step each -/

/-- 2.1 row 11. -/
theorem test_feed_completes :
    exec (.feed [0x07, 0x0D, 0x08, 0xFF, 0xAA, 0x77]) (held 0xDD [0x04, 0x00, 0x08, 0x0D, 0x05, 0x0D, 0x06, 0x0D]) =
      .next (gave [.cellVoltages [3333, 3334, 3335, 3336]] State.reset) := by rfl

/-- 2.1 row 13: the buffer's first byte decides, not the chunk's. -/
theorem test_feed_on_garbage :
    exec (.feed [0xDD, 0x04, 0x00, 0x00, 0x00, 0x00, 0x77]) (underHold (held 0x01 [0x02, 0x03])) =
      .next (underHold (held 0x01 [0x02, 0x03, 0xDD, 0x04, 0x00, 0x00, 0x00, 0x00, 0x77])) := by rfl

/-- 2.1 row 18. -/
theorem test_reset : exec .reset (held 0xDD [0x04, 0x00]) = .next State.reset := by rfl

/-- 2.2 rows 2 and 3: 6 bytes fail, 7 pass. -/
theorem test_lenchk :
    exec (.lenchk [0xDD, 0x04, 0x00, 0x00, 0x00, 0x77]) State.reset =
        .next (gave [.decodeError .lengthMismatch (some [0xDD, 0x04, 0x00, 0x00, 0x00, 0x77])] State.reset) ∧
      exec (.lenchk [0xDD, 0x04, 0x00, 0x00, 0x00, 0x00, 0x77]) State.reset = .next State.reset := ⟨by rfl, by rfl⟩

/-- 2.3 rows 4 and 6: a sum of 0x0100, and B2 outside the sum. -/
theorem test_chksum_passes :
    exec (.chksum [0xDD, 0x04, 0x00, 0x01, 0xFF, 0xFF, 0x00, 0x77]) State.reset = .next State.reset ∧
      exec (.chksum [0xDD, 0x04, 0x80, 0x02, 0x0D, 0x05, 0xFF, 0xEC, 0x77]) State.reset = .next State.reset := ⟨by rfl, by rfl⟩

/-- 2.3 row 8: one payload byte changed. -/
theorem test_chksum_fails :
    exec (.chksum (frameB.set 4 0x8D)) State.reset =
      .next (gave [.decodeError (.checksumMismatch 0xFF2A 0xFFAA) (some (frameB.set 4 0x8D))] State.reset) := by rfl

set_option maxRecDepth 65536 in
/-- 2.4, V1. -/
theorem test_status_V1 : exec (.status 0 payloadV1) State.reset = .next (gave [.status recordV1] State.reset) := by rfl

set_option maxRecDepth 65536 in
/-- 2.4, V3: signs, the cap of 32 flags, reserved bits, extreme temperatures. -/
theorem test_status_V3 :
    (match exec (.status 0 payloadV3) State.reset with
      | .next t => t.events.map fun e =>
        match e with
        | .status r => (r.currentRaw, r.year, r.balance, r.fault, r.chargingEnabled, r.tempDC)
        | _ => (0, 0, [], [], true, [])
      | _ => []) =
      [(-32768, 2127, List.replicate 32 true, List.replicate 13 true, false, [-2731, 0, 62804])] := by rfl

/-- 2.6 row 3: the odd byte is ignored. -/
theorem test_cellv_odd :
    exec (.cellv 0 [0x0C, 0xE4, 0x0C, 0xE5, 0x0C]) State.reset = .next (gave [.cellVoltages [3300, 3301]] State.reset) := by rfl

/-- 2.5 row 1: the raw bytes are the frame's. -/
theorem test_unrec :
    exec (.unrec 0x05 0x00 [0x01, 0x02, 0x03]) State.reset =
      .next (gave [.decodeError (.unknownRegister 0x05)
        (some [0xDD, 0x05, 0x00, 0x03, 0x01, 0x02, 0x03, 0xFF, 0xF7, 0x77])] State.reset) := by rfl

/-- 1.1: the command store, bit-exact. -/
theorem test_commands :
    exec .rdreg3 State.reset = .next { State.reset with cmdReads := [[0xDD, 0xA5, 0x03, 0x00, 0xFF, 0xFD, 0x77]] } ∧
      exec .rdreg4 State.reset = .next { State.reset with cmdReads := [[0xDD, 0xA5, 0x04, 0x00, 0xFF, 0xFC, 0x77]] } := ⟨by rfl, by rfl⟩

set_option maxRecDepth 65536 in
/-- 2.4, V1, from its bytes through one step. -/
theorem test_step_V1 : step (asked [.feed frameV1] State.reset) = .next (gave [.status recordV1] State.reset) := by rfl

/-- The encoder of R154 gives V1's payload back from its record, and `ENC` of R74 its frame. -/
theorem test_encoder_V1 : statusPayload recordV1 = payloadV1 ∧ frame 0x03 payloadV1 = frameV1 := by decide

/-- R67, R138, R146, R151: the decimals of V1. -/
theorem test_readout_V1 :
    recordV1.voltage = 32 ∧ recordV1.current = -(56 / 100) ∧ recordV1.firmwareVersion = 2 ∧
      recordV1.temperatures = [25, 24] := by
  norm_num [recordV1, StatusRecord.voltage, StatusRecord.current, StatusRecord.firmwareVersion, StatusRecord.temperatures]

/-- R72, R73: a program line and the pseudo-instructions; no space ends a byte string (entry 19). -/
theorem test_listing :
    showRequest (.feed [0xDD, 0x0A]) = some ['F', 'E', 'E', 'D', ' ', 'D', 'D', ' ', '0', 'A'] ∧
      readRequest ['R', 'E', 'S', 'E', 'T'] = some .reset ∧ readBytes ['D', 'D', ' '] = none ∧
      Line.request (.feed (.frame 0x04 [])) = .feed [0xDD, 0x04, 0x00, 0x00, 0x00, 0x00, 0x77] := by decide

/-! ## Witnesses of the obligations' hypotheses -/

theorem witness_FramedChunkOnEmptyBufferIsACandidate :
    State.reset.pb = .empty ∧ Bounded frameB ∧ Bounded [0xDD, 0x77] := by decide

/-- One input a clause: `DD 77`; B with `FFAB`; the shortest frames with REG 03, 04 and another. -/
theorem witness_PipelineStagesInOrder :
    State.reset.pb = .empty ∧ (Bounded [0xDD, 0x77] ∧ ¬ LengthConsistent [0xDD, 0x77]) ∧
      (Bounded (frameB.set 13 0xAB) ∧ LengthConsistent (frameB.set 13 0xAB) ∧
        computedSum (frameB.set 13 0xAB) ≠ receivedSum (frameB.set 13 0xAB)) ∧
      (Valid [0xDD, 0x03, 0x00, 0x00, 0x00, 0x00, 0x77] ∧ u8At [0xDD, 0x03, 0x00, 0x00, 0x00, 0x00, 0x77] 1 = 3) ∧
      (Valid [0xDD, 0x04, 0x00, 0x00, 0x00, 0x00, 0x77] ∧ u8At [0xDD, 0x04, 0x00, 0x00, 0x00, 0x00, 0x77] 1 = 4) ∧
      (Valid [0xDD, 0x05, 0x00, 0x00, 0x00, 0x00, 0x77] ∧ u8At [0xDD, 0x05, 0x00, 0x00, 0x00, 0x00, 0x77] 1 ≠ 3 ∧
        u8At [0xDD, 0x05, 0x00, 0x00, 0x00, 0x00, 0x77] 1 ≠ 4) := by decide

/-- The stores at a cap of exactly the chunk's length. -/
theorem witness_UnframedChunkOnEmptyBuffer :
    ((withCap 1 State.reset).pb = .empty ∧ ¬ Bounded [0xDD] ∧
        ∀ n, (withCap 1 State.reset).params.bufCap = some n → [(0xDD : Byte)].length ≤ n) ∧
      (¬ Bounded [0x77] ∧ (0x77 : Byte) ≠ 0xDD ∧ State.reset.params.policy = .discard) ∧
      ((underHold (withCap 1 State.reset)).params.policy = .hold ∧
        ∀ n, (underHold (withCap 1 State.reset)).params.bufCap = some n → [(0x77 : Byte)].length ≤ n) :=
  ⟨⟨rfl, by decide, cap_of_some 1 rfl (by decide)⟩, ⟨by decide, by decide, rfl⟩, rfl, cap_of_some 1 rfl (by decide)⟩

theorem witness_SameLeadingByteIsDropped : (held 0xDD [0x04]).pb = .hold 0xDD [0x04] := rfl

/-- Frame B completed at a cap of exactly its 15 bytes, and a chunk that leaves it open. -/
theorem witness_OtherLeadingByteIsAppended :
    let s := withCap 15 (held 0xDD [0x04, 0x00, 0x08, 0x0D, 0x05, 0x0D, 0x06, 0x0D])
    s.pb = .hold 0xDD [0x04, 0x00, 0x08, 0x0D, 0x05, 0x0D, 0x06, 0x0D] ∧ (0x07 : Byte) ≠ 0xDD ∧
      (∀ n, s.params.bufCap = some n → 9 + 6 ≤ n) ∧
      Bounded (0xDD :: [0x04, 0x00, 0x08, 0x0D, 0x05, 0x0D, 0x06, 0x0D] ++ 0x07 :: [0x0D, 0x08, 0xFF, 0xAA, 0x77]) ∧
      ¬ Bounded (0xDD :: [0x04, 0x00, 0x08, 0x0D, 0x05, 0x0D, 0x06, 0x0D] ++ 0x07 :: []) :=
  ⟨rfl, by decide, cap_of_some 15 rfl (by decide), by decide, by decide⟩

/-- 2.1 row 16 and one byte more than the cap on a held buffer. -/
theorem witness_StoreBeyondCapacityOverflows :
    ((withCap 4 State.reset).params.bufCap = some 4 ∧ (withCap 4 State.reset).pb = .empty ∧
        ¬ Bounded [0xDD, 0x01, 0x02, 0x03, 0x04] ∧ 4 < [(0xDD : Byte), 0x01, 0x02, 0x03, 0x04].length) ∧
      ((underHold (withCap 4 State.reset)).params.policy = .hold ∧ ¬ Bounded [0x00, 0x01, 0x02, 0x03, 0x04]) ∧
      ((withCap 2 (held 0xDD [0x04])).pb = .hold 0xDD [0x04] ∧ (0x00 : Byte) ≠ 0xDD ∧
        2 < [(0xDD : Byte), 0x04].length + [(0x00 : Byte)].length) := by decide

theorem witness_FeedCompletesWithAtMostOneEvent : [(0x00 : Byte)] ≠ [] := by decide

/-- Two states that differ in what was emitted and asked. -/
theorem witness_FeedDependsOnBufferChunkAndParameters :
    (held 0xDD []).pb = (gave [.cellVoltages []] (asked [.reset] (held 0xDD []))).pb ∧
      (held 0xDD []).params = (gave [.cellVoltages []] (asked [.reset] (held 0xDD []))).params ∧
      [(0x04 : Byte)] ≠ [] := by decide

/-- A dropped chunk and an appended one. -/
theorem witness_FeedWritesWholeChunks :
    (exec (.feed [0xDD]) (held 0xDD [0x04]) = .next (held 0xDD [0x04]) ∧ (held 0xDD [0x04]).pb = .hold 0xDD [0x04]) ∧
      (exec (.feed [0x00]) (held 0xDD [0x04]) = .next (held 0xDD [0x04, 0x00]) ∧
        (held 0xDD [0x04, 0x00]).pb = .hold 0xDD [0x04, 0x00]) := ⟨⟨by rfl, rfl⟩, by rfl, rfl⟩

theorem witness_WholeFrameIsIdempotent :
    Bounded frameB ∧ State.reset.params = Params.standard ∧ State.reset.pb = .empty := by decide

/-- Scenario D meets the conditions at a cap of exactly 20 bytes; the cuts of R218 and R219 fail one each. -/
theorem witness_ChunkSizeInvarianceExactly :
    (Bounded chunksD.flatten ∧ (∀ c ∈ chunksD, c ≠ []) ∧ 2 ≤ chunksD.length ∧
        (∀ c ∈ chunksD.tail, c.head? ≠ some 0xDD) ∧ (∀ c ∈ chunksD.dropLast, c.getLast? ≠ some 0x77) ∧
        chunksD.flatten.length = 20) ∧
      (Bounded [[(0xDD : Byte), 0x04, 0x00, 0x04, 0x0C], [0xDD, 0x0C, 0xDE, 0xFE, 0x29, 0x77]].flatten ∧
        ∃ c ∈ [[(0xDD : Byte), 0x04, 0x00, 0x04, 0x0C], [0xDD, 0x0C, 0xDE, 0xFE, 0x29, 0x77]].tail,
          c.head? = some 0xDD) ∧
      (Bounded [[(0xDD : Byte), 0x04, 0x00, 0x04, 0x0C, 0x77], [0x0C, 0x78, 0xFE, 0xF5, 0x77]].flatten ∧
        ∃ c ∈ [[(0xDD : Byte), 0x04, 0x00, 0x04, 0x0C, 0x77], [0x0C, 0x78, 0xFE, 0xF5, 0x77]].dropLast,
          c.getLast? = some 0x77) := by decide

theorem witness_ChunkedFeedEqualsWholeFeed :
    (withCap 20 State.reset).pb = .empty ∧ Bounded chunksD.flatten ∧ (∀ c ∈ chunksD, c ≠ []) ∧ 2 ≤ chunksD.length ∧
      (∀ c ∈ chunksD.tail, c.head? ≠ some 0xDD) ∧ (∀ c ∈ chunksD.dropLast, c.getLast? ≠ some 0x77) ∧
      (∀ n, (withCap 20 State.reset).params.bufCap = some n → chunksD.flatten.length ≤ n) :=
  ⟨rfl, by decide, by decide, by decide, by decide, by decide, cap_of_some 20 rfl (by decide)⟩

/-- A step that stores under a cap, from a state that meets R21. -/
theorem witness_StepKeepsBufferInvariant :
    (asked [.feed [0xDD, 0x04]] (withCap 2 State.reset)).Inv ∧
      step (asked [.feed [0xDD, 0x04]] (withCap 2 State.reset)) = .next (withCap 2 (held 0xDD [0x04])) := ⟨by decide, by rfl⟩

theorem witness_HeldBufferOnlyGrowsAtTheEnd :
    step (asked [.feed [0x00]] (held 0xDD [0x04])) = .next (held 0xDD [0x04, 0x00]) ∧
      (asked [.feed [0x00]] (held 0xDD [0x04])).pb = .hold 0xDD [0x04] ∧
      (held 0xDD [0x04, 0x00]).pb = .hold 0xDD [0x04, 0x00] := ⟨by rfl, rfl, rfl⟩

theorem witness_StepFrame :
    step (asked [.feed [0xDD, 0x77], .reset] State.reset) =
        .next (gave [.decodeError .lengthMismatch (some [0xDD, 0x77])] (asked [.reset] State.reset)) ∧
      step State.reset = .next State.reset := ⟨by rfl, by rfl⟩

theorem witness_OnlyFeedAndResetWriteTheBuffer :
    exec (.lenchk [0xDD, 0x77]) (held 0xDD [0x04]) =
        .next (gave [.decodeError .lengthMismatch (some [0xDD, 0x77])] (held 0xDD [0x04])) ∧
      Instr.lenchk [0xDD, 0x77] ≠ .reset ∧ (∀ c, Instr.lenchk [0xDD, 0x77] ≠ .feed c) ∧
      Instr.lenchk [0xDD, 0x77] ≠ .rdreg3 ∧ Instr.lenchk [0xDD, 0x77] ≠ .rdreg4 :=
  ⟨by rfl, by decide, fun _ h => Instr.noConfusion h, by decide, by decide⟩

theorem witness_StepRunsTheOldestRequest :
    (asked [.reset, .feed [0x00]] State.reset).inbox = [.reset, .feed [0x00]] ∧ State.reset.inbox = [] := by decide

theorem witness_StepRunsTheDecodedInstruction :
    (asked [.feed frameV1] State.reset).pb = .empty ∧ (asked [.feed frameV1] State.reset).inbox = [.feed frameV1] ∧
      decode frameV1 = .ok (.status 0x00 payloadV1) ∧ Instr.status 0x00 payloadV1 ≠ .rdreg3 ∧
      Instr.status 0x00 payloadV1 ≠ .rdreg4 := by decide

theorem witness_FetchWordRunsItsInstruction :
    decodeTableWord 32 0xDD050001 = some (.unrec 0x05 0 [0]) ∧ decodeTableWord 56 0xDDA50300FFFD77 = some .rdreg3 := by
  decide

/-- Two receivers, each with a request of its own. -/
theorem witness_ReceiversDoNotInterfere :
    let rs : Receivers := ⟨[asked [.feed [0xDD]] State.reset, asked [.reset] (held 0xDD [])]⟩
    (0 : Nat) ≠ 1 ∧ rs.stepAt 0 = .next ⟨[held 0xDD [], asked [.reset] (held 0xDD [])]⟩ ∧
      Receivers.stepAt ⟨[held 0xDD [], asked [.reset] (held 0xDD [])]⟩ 1 = .next ⟨[held 0xDD [], State.reset]⟩ := ⟨by decide, by rfl, by rfl⟩

theorem witness_ReasonsExcludedByParameters :
    step (underHold (asked [.feed [0x01]] State.reset)) = .next (underHold (held 0x01 [])) ∧
      (underHold (asked [.feed [0x01]] State.reset)).params.bufCap = none ∧
      (underHold (asked [.feed [0x01]] State.reset)).params.policy = .hold := ⟨by rfl, rfl, rfl⟩

/-- 2.2 rows 2, 3 and 7: 6 bytes, 7 with LEN 0, 7 with LEN 1; a proper beginning of frame B. -/
theorem witness_LenchkChecksTheLength :
    LengthConsistent [0xDD, 0x04, 0x00, 0x00, 0x00, 0x00, 0x77] ∧ ¬ LengthConsistent [0xDD, 0x04, 0x00, 0x00, 0x00, 0x77] ∧
      ¬ LengthConsistent [0xDD, 0x04, 0x00, 0x01, 0x00, 0x00, 0x77] ∧ LengthConsistent frameB ∧ 14 < frameB.length := by
  decide

/-- 2.3 rows 2 and 3. -/
theorem witness_ChksumComparesComputedAndReceived :
    LengthConsistent [0xDD, 0x04, 0x00, 0x00, 0x00, 0x00, 0x77] ∧
      computedSum [0xDD, 0x04, 0x00, 0x00, 0x00, 0x00, 0x77] = receivedSum [0xDD, 0x04, 0x00, 0x00, 0x00, 0x00, 0x77] ∧
      LengthConsistent [0xDD, 0x04, 0x00, 0x00, 0xFF, 0xFF, 0x77] ∧
      computedSum [0xDD, 0x04, 0x00, 0x00, 0xFF, 0xFF, 0x77] ≠ receivedSum [0xDD, 0x04, 0x00, 0x00, 0xFF, 0xFF, 0x77] := by
  decide

set_option maxRecDepth 65536 in
/-- 2.3 row 5: the longest frame has the largest sum. -/
theorem witness_ChecksumArithmetic :
    LengthConsistent ([0xDD, 0x04, 0x00, 0xFF] ++ List.replicate 255 0xFF ++ [0x01, 0x00, 0x77]) ∧
      checkedSum ([0xDD, 0x04, 0x00, 0xFF] ++ List.replicate 255 0xFF ++ [0x01, 0x00, 0x77]) = 65280 := by decide

/-- Both ends of the range of covered bytes, 4 and 13, and the two header bytes. -/
theorem witness_ChecksumProtection :
    Valid frameB ∧ frameB[4]? ≠ some 0x8D ∧ frameB[13]? ≠ some 0xAB ∧ 13 + 2 ≤ frameB.length ∧ frameB[1]? ≠ some 0x03 ∧
      frameB[2]? ≠ some 0x80 := by decide

theorem witness_ChksumStopsOnlyBelowFourBytes :
    [(0xDD : Byte), 0x04, 0x77].length < 4 ∧ 4 ≤ [(0xDD : Byte), 0x04, 0x00, 0x77].length := by decide

theorem witness_EncoderGivesTheUniqueValidFrame :
    ([] : Bytes).length ≤ 255 ∧ (List.replicate 255 (0xFF : Byte)).length ≤ 255 := by
  exact ⟨by decide, by rw [List.length_replicate]⟩

theorem witness_DecodeOfEncode :
    (Instr.status 0x80 payloadV1).wf = true ∧ (encode (.status 0x80 payloadV1)).isSome ∧ (Instr.cellv 0 []).wf = true ∧
      (encode (.cellv 0 [])).isSome ∧ (Instr.unrec 0xFF 0xFF [0x77]).wf = true ∧
      (encode (.unrec 0xFF 0xFF [0x77])).isSome ∧ Instr.rdreg3.wf = true ∧ encode .rdreg3 = some cmdRead03 ∧
      Instr.rdreg4.wf = true ∧ encode .rdreg4 = some cmdRead04 := by decide

theorem witness_EncodeOfDecode : decode frameB = .ok (.cellv 0 [0x0D, 0x05, 0x0D, 0x06, 0x0D, 0x07, 0x0D, 0x08]) := by
  decide

theorem witness_ProgramLinesRoundTrip :
    showRequest (.feed [0x0F]) = some ['F', 'E', 'E', 'D', ' ', '0', 'F'] ∧
      showRequest .reset = some ['R', 'E', 'S', 'E', 'T'] := by decide

/-- 22 bytes; 23 with no readings; V1 without its last reading; a count of 117. -/
theorem witness_StatusMinimumLength :
    State.reset.params.layout = .standard ∧ (payloadV1.take 22).length < 23 ∧
      23 + 2 * u8At ((payloadV1.take 22) ++ [0x00]) 22 ≤ ((payloadV1.take 22) ++ [0x00]).length ∧
      (payloadV1.take 25).length < 23 + 2 * u8At (payloadV1.take 25) 22 ∧
      ((payloadV1.take 22) ++ [0x75]).length ≤ 255 ∧ 117 ≤ u8At ((payloadV1.take 22) ++ [0x75]) 22 := by decide

theorem witness_StatusQuantities :
    State.reset.params.layout = .standard ∧ 23 + 2 * u8At payloadV3 22 ≤ payloadV3.length := by decide

/-- V3: 40 cells, so that cells 15, 16 and 31 are in range. -/
theorem witness_StatusDateAndBalance :
    State.reset.params.layout = .standard ∧ 23 + 2 * u8At payloadV3 22 ≤ payloadV3.length ∧
      31 < min (u8At payloadV3 21) State.reset.params.maxBalanceCells := by decide

theorem witness_StatusFlagsAndBytes :
    State.reset.params.layout = .standard ∧ 23 + 2 * u8At payloadV1 22 ≤ payloadV1.length := by decide

theorem witness_StatusTemperatures :
    State.reset.params.layout = .standard ∧ 23 + 2 * u8At payloadV3 22 ≤ payloadV3.length ∧ 2 < u8At payloadV3 22 := by
  decide

theorem witness_StatusIgnoresB2AndSurplus :
    State.reset.params.layout = .standard ∧ 23 + 2 * u8At payloadV1 22 ≤ payloadV1.length := by decide

/-- V1 with bits 15:13 of the fault word set and the FET byte 03 as FF. -/
theorem witness_StatusIgnoresReservedBits :
    State.reset.params.layout = .standard ∧ State.reset.params.fetChargeBit = 0 ∧
      State.reset.params.fetDischargeBit = 1 ∧ 23 + 2 * u8At payloadV1 22 ≤ payloadV1.length ∧
      (0xF0 : Byte).toNat % 32 = u8At payloadV1 16 % 32 ∧ (0xFF : Byte).toNat % 4 = u8At payloadV1 20 % 4 := by decide

set_option maxRecDepth 8192 in
/-- V1's record, and one with 116 readings. -/
theorem witness_StatusRecordRoundTrip :
    recordV1.inRange = true ∧
      { recordV1 with ntcCount := 116, tempDC := List.replicate 116 (-2731) }.inRange = true ∧
      State.reset.params.layout = .standard ∧ State.reset.params.maxBalanceCells = 32 ∧
      State.reset.params.fetChargeBit = 0 ∧ State.reset.params.fetDischargeBit = 1 ∧ State.reset.pb = .empty := by decide

/-- 2.6 row 5: B2 is not zero. -/
theorem witness_CellVoltages :
    State.reset.pb = .empty ∧ Valid [0xDD, 0x04, 0x80, 0x02, 0x0D, 0x05, 0xFF, 0xEC, 0x77] ∧
      u8At [0xDD, 0x04, 0x80, 0x02, 0x0D, 0x05, 0xFF, 0xEC, 0x77] 1 = 4 := by decide

theorem witness_UnknownRegisterIsReported :
    State.reset.pb = .empty ∧ Valid [0xDD, 0x05, 0x00, 0x03, 0x01, 0x02, 0x03, 0xFF, 0xF7, 0x77] ∧
      u8At [0xDD, 0x05, 0x00, 0x03, 0x01, 0x02, 0x03, 0xFF, 0xF7, 0x77] 1 ≠ 3 ∧
      u8At [0xDD, 0x05, 0x00, 0x03, 0x01, 0x02, 0x03, 0xFF, 0xF7, 0x77] 1 ≠ 4 := by decide

theorem witness_EventsOfAValidFrame :
    State.reset.pb = .empty ∧ (Valid frameV1 ∧ u8At frameV1 1 = 3) ∧ (Valid frameB ∧ u8At frameB 1 = 4) ∧
      (Valid [0xDD, 0x00, 0x00, 0x00, 0x00, 0x00, 0x77] ∧ u8At [0xDD, 0x00, 0x00, 0x00, 0x00, 0x00, 0x77] 1 ≠ 3 ∧
        u8At [0xDD, 0x00, 0x00, 0x00, 0x00, 0x00, 0x77] 1 ≠ 4) := by decide

theorem witness_CommandFedBackIsAMismatch :
    State.reset.pb = .empty ∧ Valid [0xDD, 0xA5, 0x00, 0x01, 0x01, 0xFF, 0xFE, 0x77] ∧
      u8At [0xDD, 0xA5, 0x00, 0x01, 0x01, 0xFF, 0xFE, 0x77] 1 = 0xA5 := by decide

/-- The trigger of R219, under both policies. -/
theorem witness_EarlyCompletionLosesTheFrame :
    State.reset.pb = .empty ∧ Valid ([0xDD, 0x04, 0x00, 0x04, 0x0C, 0x77] ++ [0x0C, 0x78, 0xFE, 0xF5, 0x77]) ∧
      [(0xDD : Byte), 0x04, 0x00, 0x04, 0x0C, 0x77].getLast? = some 0x77 ∧ [(0x0C : Byte), 0x78, 0xFE, 0xF5, 0x77] ≠ [] ∧
      [(0x0C : Byte), 0x78, 0xFE, 0xF5, 0x77].head? ≠ some 0xDD ∧ State.reset.params.policy = .discard ∧
      (underHold State.reset).params.policy = .hold ∧ (underHold State.reset).params.bufCap = none := by decide

/-- Frame B twice; and frame B held without its last two bytes, which come with `DD` or with `DD 77` behind them. -/
theorem witness_FramesInOneChunkAreNotSeparated :
    (State.reset.pb = .empty ∧ Valid frameB) ∧
      ((held 0xDD (frameB.tail.take 12)).pb = .hold 0xDD (frameB.tail.take 12) ∧
        Valid (0xDD :: frameB.tail.take 12 ++ [0xAA, 0x77]) ∧ [(0xAA : Byte), 0x77] ≠ [] ∧ [(0xDD : Byte)] ≠ [] ∧
        [(0xAA : Byte), 0x77].head? ≠ some 0xDD ∧ State.reset.params.bufCap = none ∧
        [(0xDD : Byte), 0x77].getLast? = some 0x77 ∧ [(0xDD : Byte)].getLast? ≠ some 0x77) := by decide

/-- A truncated frame, and whole frames after it (R221). -/
theorem witness_TruncatedFrameBlocksWholeFrames :
    (held 0xDD [0x04, 0x00, 0x08, 0x0D, 0x05]).pb = .hold 0xDD [0x04, 0x00, 0x08, 0x0D, 0x05] ∧
      ∀ c ∈ [frameB, frameV1], c.head? = some 0xDD := by decide

/-- Both ways out. -/
theorem witness_StallEndsOnlyByStopByteOrOverflow :
    (held 0xDD [0x04]).pb = .hold 0xDD [0x04] ∧
      exec (.feed [0x77]) (held 0xDD [0x04]) =
        .next (gave [.decodeError .lengthMismatch (some [0xDD, 0x04, 0x77])] State.reset) ∧
      exec (.feed [0x00]) (withCap 2 (held 0xDD [0x04])) =
        .next (gave [.decodeError .overflow none] (withCap 2 State.reset)) ∧ State.reset.pb = .empty := ⟨rfl, by rfl, by rfl, rfl⟩

theorem witness_BufferGrowsWithoutBound :
    (held 0xDD []).pb = .hold 0xDD [] ∧ (held 0xDD []).params.bufCap = none := by decide

/-- 2.1 row 13: a whole frame after the garbage. -/
theorem witness_HeldGarbageStallsForGood :
    (underHold (held 0x01 [0x02, 0x03])).pb = .hold 0x01 [0x02, 0x03] ∧ (0x01 : Byte) ≠ 0xDD ∧
      (underHold (held 0x01 [0x02, 0x03])).params.bufCap = none ∧ ∀ c ∈ [frameB], c ≠ [] := by decide

end Sys2Proof.Tests
end

/-! ## What FEED depends on (R22) -/

section
namespace Sys2Proof.Machine

/-- Settles O10: `exec_feed_cons` gives the new buffer and the added events as functions of the parameters, the buffer
and the chunk, so states that agree on these share them. -/
theorem feedDependsOnBufferChunkAndParameters : Obligations.FeedDependsOnBufferChunkAndParameters := by
  unfold Obligations.FeedDependsOnBufferChunkAndParameters
  intro s t c hpb hparams hc
  obtain ⟨c0, cs, rfl⟩ := List.exists_cons_of_ne_nil hc
  refine ⟨(reassemble s.params s.pb c0 cs).1, ((reassemble s.params s.pb c0 cs).2).events s.params,
    exec_feed_cons c0 cs s, ?_⟩
  rw [hpb, hparams]
  exact exec_feed_cons c0 cs t

end Sys2Proof.Machine
end

/-! ## No step reads outside a sequence (R46) -/

section
namespace Sys2Proof.Machine

/-- FEED answers no fault on any chunk: R99 refuses the empty one, and any other completes by `exec_feed_cons`, since a
candidate reaches the pipeline's reads only after the tests that bound them. -/
theorem exec_feed_ne_fault (c : Bytes) (s : State) (f : Fault) : exec (.feed c) s ≠ .fault f := by
  cases c with
  | nil => exact nofun
  | cons c0 cs =>
    rw [exec_feed_cons]
    exact nofun

/-- No request is a CHKSUM (R12), the one instruction that can fault by itself: on a frame below four bytes (entry 11). -/
theorem exec_request_ne_fault (r : Request) (s : State) (f : Fault) : exec r.instr s ≠ .fault f := by
  cases r with
  | feed c => exact exec_feed_ne_fault c s f
  | reset => exact nofun
  | readCommand03 => exact nofun
  | readCommand04 => exact nofun

/-- Settles O21: a step either does nothing or executes a host request, and none of these faults. -/
theorem stepNeverReadsOutOfBounds : Obligations.StepNeverReadsOutOfBounds := by
  unfold Obligations.StepNeverReadsOutOfBounds
  intro s f
  unfold step
  split
  · exact nofun
  · exact exec_request_ne_fault _ _ f

end Sys2Proof.Machine
end

/-! ## The row a header word selects (R68, R75) -/

section
namespace Sys2Proof.Machine

theorem bitVec_append_eq_append_iff {v w : Nat} {x x' : BitVec v} {y y' : BitVec w} :
    x ++ y = x' ++ y' ↔ x = x' ∧ y = y' := by
  constructor
  · intro h
    have hhigh := congrArg (·.extractLsb' w v) h
    have hlow := congrArg (·.setWidth w) h
    exact ⟨by simpa only [BitVec.extractLsb'_append_eq_left] using hhigh,
      by simpa only [BitVec.setWidth_append_eq_right] using hlow⟩
  · rintro ⟨rfl, rfl⟩
    rfl

theorem headerWord_eq_iff (start reg b2 len start' reg' b2' len' : Byte) :
    headerWord start reg b2 len = headerWord start' reg' b2' len' ↔
      start = start' ∧ reg = reg' ∧ b2 = b2' ∧ len = len' := by
  change (start ++ reg ++ b2 ++ len : BitVec (8 + 8 + 8 + 8)) = start' ++ reg' ++ b2' ++ len' ↔ _
  simp only [bitVec_append_eq_append_iff, and_assoc]

theorem headerWord_and (start reg b2 len start' reg' b2' len' : Byte) :
    headerWord start reg b2 len &&& headerWord start' reg' b2' len' =
      headerWord (start &&& start') (reg &&& reg') (b2 &&& b2') (len &&& len') := by
  change (start ++ reg ++ b2 ++ len : BitVec (8 + 8 + 8 + 8)) &&& (start' ++ reg' ++ b2' ++ len') = _
  simp only [BitVec.and_append]
  rfl

/-- A pattern that fixes START and REG does not read B2 or LEN. -/
theorem selects_start_reg (row : OpcodeRow) (start0 reg0 start reg b2 len : Byte) :
    (RowPattern.mk row (headerWord start0 reg0 0 0) 0xFFFF0000).selects (headerWord start reg b2 len) =
      decide (start = start0 ∧ reg = reg0) := by
  have hmask : (0xFFFF0000 : BitVec 32) = headerWord (BitVec.allOnes 8) (BitVec.allOnes 8) 0#8 0#8 := rfl
  simp only [RowPattern.selects, hmask, headerWord_and, headerWord_eq_iff, BitVec.and_allOnes, BitVec.and_zero]
  simp

/-- A pattern that fixes START alone, as the default row's does. -/
theorem selects_start (row : OpcodeRow) (start0 start reg b2 len : Byte) :
    (RowPattern.mk row (headerWord start0 0 0 0) 0xFF000000).selects (headerWord start reg b2 len) =
      decide (start = start0) := by
  have hmask : (0xFF000000 : BitVec 32) = headerWord (BitVec.allOnes 8) 0#8 0#8 0#8 := rfl
  simp only [RowPattern.selects, hmask, headerWord_and, headerWord_eq_iff, BitVec.and_allOnes, BitVec.and_zero]
  simp

/-- The table's match values are header words with B2 and LEN zero. -/
theorem opcodeRows_eq : opcodeRows =
    [⟨.status, headerWord startByte regStatus 0 0, 0xFFFF0000⟩,
      ⟨.cellv, headerWord startByte regCellv 0 0, 0xFFFF0000⟩,
      ⟨.unrec, headerWord startByte 0 0 0, 0xFF000000⟩] := rfl

/-- Settles O38: every row's test asks for START, so another first byte selects none; with START the tests left are those
of REG in the table's order, and none of them reads B2 or LEN (`selects_start_reg`, `selects_start`). -/
theorem headerSelectsTheRow : Obligations.HeaderSelectsTheRow := by
  unfold Obligations.HeaderSelectsTheRow
  intro start reg b2 len
  change _ = if start ≠ startByte then none else if reg = regStatus then some OpcodeRow.status
    else if reg = regCellv then some .cellv else some .unrec
  simp only [selectRow, opcodeRows_eq, List.find?_cons, List.find?_nil, selects_start_reg, selects_start]
  by_cases hstart : start = startByte
  · by_cases hstatus : reg = regStatus
    · simp [hstart, hstatus]
    · by_cases hcellv : reg = regCellv
      · have hne : regCellv ≠ regStatus := by decide
        simp [hstart, hcellv, hne]
      · simp [hstart, hstatus, hcellv]
  · simp [hstart]

end Sys2Proof.Machine
end

/-! ## A chunk appended to a held buffer (R95) -/

section
namespace Sys2Proof.Machine

section
variable {s : State} {b0 c0 : Byte} {bs cs : Bytes} (hpb : s.pb = .hold b0 bs) (hne : c0 ≠ b0)
  (hcap : ∀ n, s.params.bufCap = some n → (b0 :: bs).length + (c0 :: cs).length ≤ n)
include hpb hne hcap

/-- The appended buffer passes the boundary test: it goes through the pipeline whole, and the buffer is cleared. -/
theorem exec_feed_append_of_bounded (hb : Bounded (b0 :: bs ++ c0 :: cs)) :
    exec (.feed (c0 :: cs)) s =
      .next ((s.setPb .empty).emit (pipelineEvent s.params (b0 :: bs ++ c0 :: cs))) := by
  have hr : reassemble s.params s.pb c0 cs = (.empty, .candidate (b0 :: bs ++ c0 :: cs)) := by
    rw [hpb, reassemble, if_neg hne, overCap_eq_false.2 hcap, (boundaryOk_iff _).2 hb]
    rfl
  rw [exec_feed_cons, hr]
  rfl

/-- The appended buffer fails the boundary test: it is held, without an event. -/
theorem exec_feed_append_of_not_bounded (hb : ¬ Bounded (b0 :: bs ++ c0 :: cs)) :
    exec (.feed (c0 :: cs)) s = .next (s.setPb (.hold b0 (bs ++ c0 :: cs))) := by
  have hr : reassemble s.params s.pb c0 cs = (.hold b0 (bs ++ c0 :: cs), .nothing) := by
    rw [hpb, reassemble, if_neg hne, overCap_eq_false.2 hcap, (boundaryOk_eq_false _).2 hb]
    rfl
  rw [exec_feed_cons, hr]
  simp only [Yield.events, List.append_nil, State.setPb]

end

/-- Settles O6, by the two outcomes of the boundary test on the appended buffer. When it passes, both sides of the first
equation are the pipeline's event on the emptied buffer (`exec_feed_append_of_bounded`, `exec_feed_of_bounded`). -/
theorem otherLeadingByteIsAppended : Obligations.OtherLeadingByteIsAppended := by
  unfold Obligations.OtherLeadingByteIsAppended
  intro s b0 c0 bs cs hpb hne hcap
  refine ⟨fun hb => ?_, exec_feed_append_of_not_bounded hpb hne hcap⟩
  have happend := exec_feed_append_of_bounded hpb hne hcap hb
  have hwhole := exec_feed_of_bounded (s := s.setPb .empty) rfl hb
  exact ⟨happend.trans hwhole.symm, _, happend⟩

end Sys2Proof.Machine
end

/-! ## Unknown registers (R126) -/

section
namespace Sys2Proof.Machine

/-- UNREC on any payload and in any state (R126). -/
theorem exec_unrec (reg b2 : Byte) (p : Bytes) (s : State) :
    exec (.unrec reg b2 p) s =
      .next (s.emit (.decodeError (.unknownRegister reg) (some (frameOf reg b2 p)))) := rfl

/-- Past both checks, the pipeline's event is decided by the register id alone when no decoder knows it (R125). -/
theorem pipelineEvent_of_unknown_register {prm : Params} {F : Bytes} (hv : Valid F)
    (h3 : u8At F 1 ≠ 3) (h4 : u8At F 1 ≠ 4) :
    pipelineEvent prm F = .decodeError (.unknownRegister (F.getD 1 0)) (some F) := by
  obtain ⟨-, hlength, hsum⟩ := hv
  have hstatus : F.getD 1 0 ≠ regStatus := fun h => h3 (congrArg BitVec.toNat h)
  have hcellv : F.getD 1 0 ≠ regCellv := fun h => h4 (congrArg BitVec.toNat h)
  rw [pipelineEvent, if_pos hlength, if_pos hsum, if_neg hstatus, if_neg hcellv]

/-- Settles O51: UNREC answers this event for every payload (`exec_unrec`), and a valid frame on an empty buffer goes
through the pipeline whole (`exec_feed_of_bounded`), which reports its unknown register. -/
theorem unknownRegisterIsReported : Obligations.UnknownRegisterIsReported := by
  unfold Obligations.UnknownRegisterIsReported
  refine ⟨fun s reg b2 p => exec_unrec reg b2 p s, fun s F hempty hv h3 h4 => ?_⟩
  rw [exec_feed_of_bounded hempty hv.1, pipelineEvent_of_unknown_register hv h3 h4, State.emit]

end Sys2Proof.Machine
end

/-! ## The reassembler, one equation a case (R92 to R97) -/

section
namespace Sys2Proof.Machine

section
variable {prm : Params} {b0 c0 : Byte} {bs cs : Bytes}

/-- Storing is what R93 leaves when it does not report Unframed. -/
theorem not_unframed_iff : ¬ (c0 ≠ startByte ∧ prm.policy = .discard) ↔ c0 = startByte ∨ prm.policy = .hold := by
  cases prm.policy <;> simp

theorem reassemble_unframed (hb : ¬ Bounded (c0 :: cs)) (hc : c0 ≠ startByte) (hp : prm.policy = .discard) :
    reassemble prm .empty c0 cs = (.empty, .error .unframed (some (c0 :: cs))) := by
  simp [reassemble, (boundaryOk_eq_false _).2 hb, hc, hp]

theorem reassemble_store (hb : ¬ Bounded (c0 :: cs)) (hs : c0 = startByte ∨ prm.policy = .hold)
    (hcap : overCap prm.bufCap (c0 :: cs).length = false) :
    reassemble prm .empty c0 cs = (.hold c0 cs, .nothing) := by
  rw [reassemble, (boundaryOk_eq_false _).2 hb, if_neg (not_unframed_iff.2 hs), hcap]
  rfl

theorem reassemble_store_overflow (hb : ¬ Bounded (c0 :: cs)) (hs : c0 = startByte ∨ prm.policy = .hold)
    (hcap : overCap prm.bufCap (c0 :: cs).length = true) :
    reassemble prm .empty c0 cs = (.empty, .error .overflow none) := by
  rw [reassemble, (boundaryOk_eq_false _).2 hb, if_neg (not_unframed_iff.2 hs), hcap]
  rfl

theorem reassemble_same : reassemble prm (.hold b0 bs) b0 cs = (.hold b0 bs, .nothing) := by
  rw [reassemble, if_pos rfl]

theorem reassemble_append_overflow (hne : c0 ≠ b0)
    (hcap : overCap prm.bufCap ((b0 :: bs).length + (c0 :: cs).length) = true) :
    reassemble prm (.hold b0 bs) c0 cs = (.empty, .error .overflow none) := by
  rw [reassemble, if_neg hne, hcap]
  rfl

theorem reassemble_append_held (hne : c0 ≠ b0) (hcap : overCap prm.bufCap ((b0 :: bs).length + (c0 :: cs).length) = false)
    (hb : ¬ Bounded (b0 :: bs ++ c0 :: cs)) :
    reassemble prm (.hold b0 bs) c0 cs = (.hold b0 (bs ++ c0 :: cs), .nothing) := by
  rw [reassemble, if_neg hne, hcap, (boundaryOk_eq_false _).2 hb]
  rfl

theorem reassemble_append_candidate (hne : c0 ≠ b0)
    (hcap : overCap prm.bufCap ((b0 :: bs).length + (c0 :: cs).length) = false) (hb : Bounded (b0 :: bs ++ c0 :: cs)) :
    reassemble prm (.hold b0 bs) c0 cs = (.empty, .candidate (b0 :: bs ++ c0 :: cs)) := by
  rw [reassemble, if_neg hne, hcap, (boundaryOk_iff _).2 hb]
  rfl

end

/-- FEED carries out what the reassembler answers. -/
theorem exec_feed_of_reassemble {s : State} {c0 : Byte} {cs : Bytes} {pb : PartialBuffer} {y : Yield}
    (h : reassemble s.params s.pb c0 cs = (pb, y)) :
    exec (.feed (c0 :: cs)) s = .next { s with pb := pb, events := s.events ++ y.events s.params } := by
  rw [exec_feed_cons, h]

/-- FEED writes the buffer and says nothing where the reassembler yields nothing. -/
theorem exec_feed_of_reassemble_nothing {s : State} {c0 : Byte} {cs : Bytes} {pb : PartialBuffer}
    (h : reassemble s.params s.pb c0 cs = (pb, .nothing)) : exec (.feed (c0 :: cs)) s = .next (s.setPb pb) := by
  rw [exec_feed_of_reassemble h]
  simp only [Yield.events, List.append_nil, State.setPb]

/-- A chunk with the held buffer's first byte changes nothing (R94). -/
theorem exec_feed_same {s : State} {b0 : Byte} {bs cs : Bytes} (hpb : s.pb = .hold b0 bs) :
    exec (.feed (b0 :: cs)) s = .next s := by
  have hr : reassemble s.params s.pb b0 cs = (.hold b0 bs, .nothing) := by rw [hpb, reassemble_same]
  rw [exec_feed_of_reassemble_nothing hr, setPb_eq_of_pb hpb]

/-- An unframed chunk is stored on an empty buffer, within the cap, when it begins with START or the policy is HOLD
(R93). -/
theorem exec_feed_store {s : State} {c0 : Byte} {cs : Bytes} (he : s.pb = .empty) (hb : ¬ Bounded (c0 :: cs))
    (hs : c0 = startByte ∨ s.params.policy = .hold) (hcap : ∀ n, s.params.bufCap = some n → (c0 :: cs).length ≤ n) :
    exec (.feed (c0 :: cs)) s = .next (s.setPb (.hold c0 cs)) :=
  exec_feed_of_reassemble_nothing (by rw [he, reassemble_store hb hs (overCap_eq_false.2 hcap)])

/-- An unframed chunk is reported on an empty buffer under DISCARD when it does not begin with START (R93). -/
theorem exec_feed_unframed {s : State} {c0 : Byte} {cs : Bytes} (he : s.pb = .empty) (hb : ¬ Bounded (c0 :: cs))
    (hc : c0 ≠ startByte) (hp : s.params.policy = .discard) :
    exec (.feed (c0 :: cs)) s = .next (s.emit (.decodeError .unframed (some (c0 :: cs)))) := by
  have hr : reassemble s.params s.pb c0 cs = (.empty, .error .unframed (some (c0 :: cs))) := by
    rw [he, reassemble_unframed hb hc hp]
  rw [exec_feed_of_reassemble hr, ← he]
  rfl

/-- A buffer that is still held is the one before, or that one with the whole chunk behind it (R93 to R95). -/
theorem reassemble_eq_hold {prm : Params} {pb : PartialBuffer} {b0 c0 : Byte} {bs cs : Bytes}
    (h : (reassemble prm pb c0 cs).1 = .hold b0 bs) :
    pb = .hold b0 bs ∨ b0 :: bs = pb.contents ++ c0 :: cs := by
  rcases reassemble_cases prm pb c0 cs with ⟨-, -, e⟩ | ⟨-, -, -, -, e⟩ | ⟨-, -, -, -, e⟩ | ⟨rfl, -, -, -, e⟩ |
      ⟨_, _, rfl, -, e⟩ | ⟨_, _, -, -, -, e⟩ | ⟨_, _, -, -, -, -, e⟩ | ⟨_, _, rfl, -, -, -, e⟩ <;>
    rw [e] at h <;> cases h
  · exact .inr rfl
  · exact .inl rfl
  · exact .inr rfl

/-- The two reasons the reassembler raises, each under its parameter only (D4, D5). -/
theorem reassemble_error {prm : Params} {pb : PartialBuffer} {c0 : Byte} {cs : Bytes} {reason : Reason}
    {raw : Option Bytes} (h : (reassemble prm pb c0 cs).2 = .error reason raw) :
    reason = .unframed ∧ prm.policy = .discard ∨ reason = .overflow ∧ prm.bufCap ≠ none := by
  have hcap {n : Nat} (ho : overCap prm.bufCap n = true) : prm.bufCap ≠ none := by
    intro hn
    rw [hn] at ho
    cases ho
  rcases reassemble_cases prm pb c0 cs with ⟨-, -, e⟩ | ⟨-, -, -, hp, e⟩ | ⟨-, -, -, ho, e⟩ | ⟨-, -, -, -, e⟩ |
      ⟨_, _, -, -, e⟩ | ⟨_, _, -, -, ho, e⟩ | ⟨_, _, -, -, -, -, e⟩ | ⟨_, _, -, -, -, -, e⟩ <;>
    rw [e] at h <;> cases h
  · exact .inl ⟨rfl, hp⟩
  · exact .inr ⟨rfl, hcap ho⟩
  · exact .inr ⟨rfl, hcap ho⟩

end Sys2Proof.Machine
end

/-! ## The buffer's invariants (R21) -/

section
namespace Sys2Proof.Machine

/-- R21 of a held buffer, in the spec's terms: (I2), (I4) and (I5). -/
theorem inv_hold_iff {prm : Params} {b0 : Byte} {bs : Bytes} :
    (PartialBuffer.hold b0 bs).inv prm = true ↔
      ¬ Bounded (b0 :: bs) ∧ (b0 = startByte ∨ prm.policy = .hold) ∧ overCap prm.bufCap (b0 :: bs).length = false := by
  simp only [PartialBuffer.inv, Bool.and_eq_true, Bool.or_eq_true, Bool.not_eq_true', decide_eq_true_eq,
    boundaryOk_eq_false, and_assoc, or_comm]

/-- The reassembler stores only what failed the boundary test, was not Unframed and is within the cap; appending keeps
the first byte. -/
theorem reassemble_inv {prm : Params} {pb : PartialBuffer} (h : pb.inv prm = true) (c0 : Byte) (cs : Bytes) :
    (reassemble prm pb c0 cs).1.inv prm = true := by
  rcases reassemble_cases prm pb c0 cs with ⟨-, -, e⟩ | ⟨-, -, -, -, e⟩ | ⟨-, -, -, -, e⟩ | ⟨-, hb, hs, ho, e⟩ |
      ⟨_, _, rfl, -, e⟩ | ⟨_, _, -, -, -, e⟩ | ⟨_, _, -, -, -, -, e⟩ | ⟨b0, bs, rfl, -, ho, hb, e⟩ <;>
    rw [e]
  · rfl
  · rfl
  · rfl
  · exact inv_hold_iff.2 ⟨hb, hs, ho⟩
  · exact h
  · rfl
  · rfl
  · obtain ⟨-, hs, -⟩ := inv_hold_iff.1 h
    exact inv_hold_iff.2 ⟨hb, hs, by rwa [← List.cons_append, List.length_append]⟩

/-- Settles O16: a completed instruction leaves the buffer, empties it or lets the reassembler write it (`exec_cases`),
and the reassembler keeps the invariants (`reassemble_inv`). -/
theorem stepKeepsBufferInvariant : Obligations.StepKeepsBufferInvariant := by
  unfold Obligations.StepKeepsBufferInvariant
  intro s s' hinv hstep
  rcases step_cases hstep with ⟨-, rfl⟩ | ⟨r, rest, -, hexec⟩
  · exact hinv
  obtain ⟨hparams, -, -, hpb⟩ := exec_cases hexec
  rw [State.Inv, hparams]
  rcases hpb with hpb | ⟨-, hpb⟩ | ⟨c0, cs, -, hpb⟩ <;> rw [hpb]
  · exact hinv
  · rfl
  · exact reassemble_inv hinv c0 cs

/-- Settles O17: the buffer of the reset state is EMPTY, which meets R21 whatever the parameters are. -/
theorem resetMeetsBufferInvariant : Obligations.ResetMeetsBufferInvariant := by
  unfold Obligations.ResetMeetsBufferInvariant
  exact fun _ => rfl

end Sys2Proof.Machine
end

/-! ## Runs of several FEEDs, and a stalled receiver (R100, R218 to R223) -/

section
namespace Sys2Proof.Machine

theorem feedAll_cons_of_next {c : Bytes} {cs : List Bytes} {s t : State} (h : exec (.feed c) s = .next t) :
    feedAll (c :: cs) s = feedAll cs t := by
  rw [feedAll, h]

/-- Settles O57: every chunk is dropped (`exec_feed_same`), so the run ends in the state it began in. -/
theorem truncatedFrameBlocksWholeFrames : Obligations.TruncatedFrameBlocksWholeFrames := by
  unfold Obligations.TruncatedFrameBlocksWholeFrames
  intro s b0 bs cs hpb hcs
  induction cs with
  | nil => rfl
  | cons c cs ih =>
    obtain ⟨hc, htail⟩ := List.forall_mem_cons.1 hcs
    obtain ⟨ct, rfl⟩ := List.head?_eq_some_iff.1 hc
    rw [feedAll_cons_of_next (exec_feed_same hpb)]
    exact ih htail

/-- With no cap a chunk that leaves the appended buffer unframed only extends a held buffer, by nothing when it is
dropped. -/
theorem exec_feed_extends {s : State} {b0 c0 : Byte} {bs cs : Bytes} (hpb : s.pb = .hold b0 bs)
    (hcap : s.params.bufCap = none) (hb : ¬ Bounded (b0 :: bs ++ c0 :: cs)) :
    ∃ bs', exec (.feed (c0 :: cs)) s = .next (s.setPb (.hold b0 (bs ++ bs'))) := by
  by_cases hc : c0 = b0
  · subst hc
    exact ⟨[], by rw [exec_feed_same hpb, List.append_nil, setPb_eq_of_pb hpb]⟩
  · exact ⟨c0 :: cs, exec_feed_append_of_not_bounded hpb hc (by simp [hcap]) hb⟩

/-- Settles O60, by induction over the chunks: no buffer that begins with another byte than DD passes the boundary test,
so each chunk only extends it (`exec_feed_extends`). -/
theorem heldGarbageStallsForGood : Obligations.HeldGarbageStallsForGood := by
  unfold Obligations.HeldGarbageStallsForGood
  intro s b0 bs cs hpb hb0 hcap hcs
  induction cs generalizing s bs with
  | nil => exact ⟨[], by simp [feedAll, ← hpb]⟩
  | cons c cs ih =>
    obtain ⟨hc, htail⟩ := List.forall_mem_cons.1 hcs
    obtain ⟨c0, ct, rfl⟩ := List.exists_cons_of_ne_nil hc
    have hb : ¬ Bounded (b0 :: bs ++ c0 :: ct) := fun h => hb0 ((bounded_cons_append hc).1 h).1
    obtain ⟨bs₁, hfirst⟩ := exec_feed_extends hpb hcap hb
    obtain ⟨bs₂, hrest⟩ := ih (s.setPb (.hold b0 (bs ++ bs₁))) (bs ++ bs₁) rfl hcap htail
    refine ⟨bs₁ ++ bs₂, ?_⟩
    rw [feedAll_cons_of_next hfirst, hrest, List.append_assoc]
    rfl

/-- There is a byte that neither drops the chunk it begins nor completes a frame. -/
theorem exists_byte_ne (b0 : Byte) : ∃ x : Byte, x ≠ b0 ∧ x ≠ 0x77 := by
  by_cases h : b0 = 0
  · exact ⟨1, by rw [h]; decide, by decide⟩
  · exact ⟨0, Ne.symm h, by decide⟩

/-- Settles O59: one chunk of `n + 1` equal bytes, neither the held first byte nor the stop byte, is appended. -/
theorem bufferGrowsWithoutBound : Obligations.BufferGrowsWithoutBound := by
  unfold Obligations.BufferGrowsWithoutBound
  intro s b0 bs n hpb hcap
  obtain ⟨x, hx0, hx⟩ := exists_byte_ne b0
  have hlast : (List.replicate (n + 1) x).getLast? = some x := by
    rw [List.getLast?_replicate, if_neg (by omega)]
  have hb : ¬ Bounded (b0 :: bs ++ List.replicate (n + 1) x) := by
    rw [bounded_cons_append (by simp), hlast]
    exact fun h => hx (Option.some.inj h.2)
  refine ⟨[List.replicate (n + 1) x], bs ++ List.replicate (n + 1) x, by simp, ?_, by simp; omega⟩
  exact feedAll_cons_of_next (exec_feed_append_of_not_bounded hpb hx0 (by simp [hcap]) hb)

/-- Settles O58: of what the reassembler can do with a held buffer, two cases empty it, the Overflow and the candidate;
the candidate passed the boundary test, which reads the chunk's last byte. -/
theorem stallEndsOnlyByStopByteOrOverflow : Obligations.StallEndsOnlyByStopByteOrOverflow := by
  unfold Obligations.StallEndsOnlyByStopByteOrOverflow
  intro s s' b0 bs c hpb hexec hempty
  cases c with
  | nil => cases hexec
  | cons c0 cs =>
    rw [exec_feed_cons, hpb] at hexec
    cases hexec
    have hhead (h : c0 ≠ b0) : (c0 :: cs).head? ≠ some b0 := fun hc => h (Option.some.inj hc)
    rcases reassemble_cases s.params (.hold b0 bs) c0 cs with ⟨h, -⟩ | ⟨h, -⟩ | ⟨h, -⟩ | ⟨h, -⟩ | ⟨_, _, h, -, e⟩ |
      ⟨_, _, h, hne, -, e⟩ | ⟨_, _, h, hne, -, hb, e⟩ | ⟨_, _, h, -, -, -, e⟩ <;> cases h <;>
      rw [e] at hempty
    · cases hempty
    · exact ⟨hhead hne, .inr (by rw [e]; rfl)⟩
    · exact ⟨hhead hne, .inl ((bounded_cons_append (by simp)).1 hb).2⟩
    · cases hempty

end Sys2Proof.Machine
end

/-! ## The frame with given fields is valid (R74) -/

section
namespace Sys2Proof.Machine

theorem u8At_append_right (p e : Bytes) (i : Nat) : u8At (p ++ e) (p.length + i) = u8At e i := by
  simp [u8At, List.getElem?_append_right]

theorem extract_append_extract (x : Half) : x.extractLsb' 8 8 ++ x.extractLsb' 0 8 = x := by
  rw [BitVec.extractLsb'_append_extractLsb'_eq_extractLsb' (by rfl)]
  simp

theorem extract_high_append (a b : Byte) : (a ++ b).extractLsb' 8 8 = a :=
  BitVec.extractLsb'_append_eq_left (a := a) (b := b)

theorem extract_low_append (a b : Byte) : (a ++ b).extractLsb' 0 8 = b :=
  BitVec.extractLsb'_append_eq_right (a := a) (b := b)

/-- The two bytes of a 16-bit value, high byte first, make its number (R42). -/
theorem extract_toNat (x : Half) : (x.extractLsb' 8 8).toNat * 256 + (x.extractLsb' 0 8).toNat = x.toNat := by
  have hhigh := (x.extractLsb' 8 8).isLt
  have hlow := (x.extractLsb' 0 8).isLt
  have happend := append_eq_ofNat (x.extractLsb' 8 8) (x.extractLsb' 0 8)
  rw [extract_append_extract] at happend
  conv_rhs => rw [happend, BitVec.toNat_ofNat]
  omega

theorem receivedSum_frameOf (reg b2 : Byte) (p : Bytes) :
    receivedSum (frameOf reg b2 p) = (checksumOf (p.length + sumBytes p)).toNat := by
  have hindex : (frameOf reg b2 p).length - 3
      = ([startByte, reg, b2, BitVec.ofNat 8 p.length] ++ p).length := by
    rw [length_frameOf, List.length_append]
    simp
    omega
  rw [receivedSum, hindex, u16At, frameOf]
  have h0 := u8At_append_right ([startByte, reg, b2, BitVec.ofNat 8 p.length] ++ p)
    [(checksumOf (p.length + sumBytes p)).extractLsb' 8 8, (checksumOf (p.length + sumBytes p)).extractLsb' 0 8,
      stopByte]
  rw [h0 1, ← extract_toNat]
  congr 2
  exact h0 0

theorem valid_frameOf {reg b2 : Byte} {p : Bytes} (h : p.length ≤ 255) : Valid (frameOf reg b2 p) := by
  have hlength := lengthConsistent_frameOf (reg := reg) (b2 := b2) h
  have hle := checkedSum_le hlength
  rw [checkedSum_frameOf h] at hle
  refine ⟨bounded_frameOf reg b2 p, hlength, ?_⟩
  rw [receivedSum_frameOf, checksumOf_eq (by omega), computedSum, checkedSum_frameOf h, BitVec.toNat_ofNat]
  omega

end Sys2Proof.Machine
end

/-! ## The stages as instructions (R111 to R115) -/

section
namespace Sys2Proof.Machine

theorem exec_lenchk_pass {F : Bytes} (s : State) (h : LengthConsistent F) : exec (.lenchk F) s = .next s := by
  show execLenchk F s = _
  rw [execLenchk, lengthStage_eq_none h]
  rfl

theorem exec_lenchk_fail {F : Bytes} (s : State) (h : ¬ LengthConsistent F) :
    exec (.lenchk F) s = .next (s.emit (.decodeError .lengthMismatch (some F))) := by
  show execLenchk F s = _
  rw [execLenchk, lengthStage_eq_some h]
  rfl

theorem exec_chksum_pass {F : Bytes} (s : State) (h : LengthConsistent F) (hc : computedSum F = receivedSum F) :
    exec (.chksum F) s = .next s := by
  show execChksum F s = _
  rw [execChksum_eq s h, if_pos hc]

theorem exec_chksum_fail {F : Bytes} (s : State) (h : LengthConsistent F) (hc : computedSum F ≠ receivedSum F) :
    exec (.chksum F) s = .next (s.emit (.decodeError
      (.checksumMismatch (BitVec.ofNat 16 (computedSum F)) (BitVec.ofNat 16 (receivedSum F))) (some F))) := by
  show execChksum F s = _
  rw [execChksum_eq s h, if_neg hc]

/-- From 4 bytes on CHKSUM completes, with or without an event; below, its read of LEN faults (entry 11). -/
theorem exec_chksum_of_four_le {F : Bytes} (s : State) (h : 4 ≤ F.length) :
    exec (.chksum F) s = .next s ∨ ∃ e, exec (.chksum F) s = .next (s.emit e) := by
  obtain ⟨k, hk⟩ := checksumPair_ok h
  show execChksum F s = _ ∨ ∃ e, execChksum F s = _
  rw [execChksum, checksumStage, hk]
  simp only [Except.map, orFault]
  split
  · exact .inl rfl
  · exact .inr ⟨_, rfl⟩

theorem exec_chksum_of_lt_four {F : Bytes} (s : State) (h : F.length < 4) :
    exec (.chksum F) s = .fault (.readOutOfBounds 3) := by
  have hread : checksumPair F = .error (.readOutOfBounds 3) := by
    rw [checksumPair, idxLen, byteAt_error (by omega)]
    rfl
  show execChksum F s = _
  rw [execChksum, checksumStage, hread]
  rfl

theorem emit_ne_self (s : State) (e : Event) : s.emit e ≠ s := by
  intro h
  have := congrArg (fun t => t.events.length) h
  simp at this

/-- Two length-consistent frames, one the beginning of the other, are equal: they have the length byte in common. -/
theorem eq_nil_of_lengthConsistent_append {a b : Bytes} (ha : LengthConsistent a) (hab : LengthConsistent (a ++ b)) :
    b = [] := by
  obtain ⟨h7, hlen⟩ := ha
  obtain ⟨-, hlen'⟩ := hab
  rw [u8At_append (by omega), List.length_append] at hlen'
  exact List.length_eq_zero_iff.1 (by omega)

/-- Settles O30, by the outcomes of the length test; no proper beginning passes it because LEN fixes the length
(`eq_nil_of_lengthConsistent_append`). -/
theorem lenchkChecksTheLength : Obligations.LenchkChecksTheLength := by
  unfold Obligations.LenchkChecksTheLength
  intro F s
  refine ⟨exec_lenchk_pass s, exec_lenchk_fail s, fun n hF hn htake => ?_⟩
  rw [← List.take_append_drop n F] at hF
  have hdrop := List.drop_eq_nil_iff.1 (eq_nil_of_lengthConsistent_append htake hF)
  omega

/-- Settles O31: the two outcomes of `execChksum_eq`; both values fit 16 bits, so they are equal exactly when their high
and low bytes are. -/
theorem chksumComparesComputedAndReceived : Obligations.ChksumComparesComputedAndReceived := by
  unfold Obligations.ChksumComparesComputedAndReceived
  intro F s h
  refine ⟨exec_chksum_pass s h, exec_chksum_fail s h, ?_⟩
  have hc := computedSum_lt F
  have hlow := u8At_lt F (F.length - 2)
  have hhigh := u8At_lt F (F.length - 3)
  obtain ⟨h7, -⟩ := h
  rw [receivedSum, u16At, show F.length - 3 + 1 = F.length - 2 by omega]
  omega

/-- Settles O32: the sum's bound is `checkedSum_le`; CHKSUM passes exactly when the values agree, since an event changes
the state, and the computed value is the negation of the sum modulo 65536. -/
theorem checksumArithmetic : Obligations.ChecksumArithmetic := by
  unfold Obligations.ChecksumArithmetic
  intro F s h
  have hle := checkedSum_le h
  have hr := receivedSum_lt F
  have hpass : exec (.chksum F) s = .next s ↔ computedSum F = receivedSum F := by
    refine ⟨fun hexec => ?_, exec_chksum_pass s h⟩
    by_contra hc
    rw [exec_chksum_fail s h hc] at hexec
    exact emit_ne_self _ _ (Host.Outcome.next.inj hexec)
  refine ⟨hle, by omega, by omega, ?_⟩
  rw [hpass, computedSum]
  omega

/-- Settles O34, by the one read that can fail, of LEN at index 3. -/
theorem chksumStopsOnlyBelowFourBytes : Obligations.ChksumStopsOnlyBelowFourBytes := by
  unfold Obligations.ChksumStopsOnlyBelowFourBytes
  intro F s
  refine ⟨exec_chksum_of_lt_four s, fun h => ?_⟩
  rcases exec_chksum_of_four_le s h with hpass | ⟨e, hfail⟩
  · exact ⟨[], by rw [hpass, List.append_nil]⟩
  · exact ⟨[e], hfail⟩

/-! ### One byte of a frame changed (R115) -/

theorem lengthConsistent_set {F : Bytes} {i : Nat} {x : Byte} (h : LengthConsistent F) (hi : i ≠ 3) :
    LengthConsistent (F.set i x) := by
  rw [LengthConsistent, List.length_set, u8At_set_ne hi]
  exact h

theorem sumBytes_cons (y : Byte) (p : Bytes) : sumBytes (y :: p) = y.toNat + sumBytes p := by
  simp [sumBytes]

/-- Changing one byte changes the sum by the difference of the two. -/
theorem sumBytes_set {p : Bytes} {i : Nat} (x : Byte) (h : i < p.length) :
    sumBytes (p.set i x) + u8At p i = sumBytes p + x.toNat := by
  induction p generalizing i with
  | nil => simp at h
  | cons y p ih =>
    cases i with
    | zero =>
      rw [List.set_cons_zero, sumBytes_cons, sumBytes_cons, show u8At (y :: p) 0 = y.toNat from rfl]
      omega
    | succ i =>
      have := ih (i := i) (by simpa using h)
      rw [List.set_cons_succ, sumBytes_cons, sumBytes_cons, show u8At (y :: p) (i + 1) = u8At p i from rfl]
      omega

theorem payloadBytes_set_payload {F : Bytes} {j : Nat} (x : Byte) (h : j + 7 < F.length) :
    payloadBytes (F.set (4 + j) x) = (payloadBytes F).set j x := by
  apply List.ext_getElem
  · simp [payloadBytes]
  · intro k hk _
    simp only [payloadBytes, List.length_map, List.length_range, List.length_set] at hk
    by_cases hjk : j = k
    · subst hjk
      simp [payloadBytes, show 4 + j < F.length by omega]
    · simp [payloadBytes, hjk, show 4 + k < F.length by omega]

theorem payloadBytes_set_outside {F : Bytes} {i : Nat} (x : Byte) (h : i < 4 ∨ F.length ≤ i + 3) :
    payloadBytes (F.set i x) = payloadBytes F := by
  apply List.ext_getElem
  · simp [payloadBytes]
  · intro k hk _
    simp only [payloadBytes, List.length_map, List.length_range, List.length_set] at hk
    simp [payloadBytes, show i ≠ 4 + k by omega]

theorem checkedSum_set_payload {F : Bytes} {i : Nat} (x : Byte) (h4 : 4 ≤ i) (h : i + 3 < F.length) :
    checkedSum (F.set i x) + u8At F i = checkedSum F + x.toNat := by
  obtain ⟨j, rfl⟩ := Nat.exists_eq_add_of_le h4
  have hset := sumBytes_set (p := payloadBytes F) (i := j) x (by rw [length_payloadBytes]; omega)
  rw [u8At_payloadBytes (by omega)] at hset
  rw [checkedSum_eq, checkedSum_eq, u8At_set_ne (by omega), payloadBytes_set_payload x (by omega)]
  omega

theorem checkedSum_set_outside {F : Bytes} {i : Nat} (x : Byte) (h : i < 3 ∨ F.length ≤ i + 3) (h7 : 7 ≤ F.length) :
    checkedSum (F.set i x) = checkedSum F := by
  rw [checkedSum_eq, checkedSum_eq, u8At_set_ne (by omega), payloadBytes_set_outside x (by omega)]

theorem receivedSum_set_outside {F : Bytes} {i : Nat} (x : Byte) (h : i + 3 < F.length) :
    receivedSum (F.set i x) = receivedSum F := by
  rw [receivedSum, receivedSum, u16At, u16At, List.length_set, u8At_set_ne (by omega), u8At_set_ne (by omega)]

/-- Another value in one of the two checksum bytes is another received value. -/
theorem receivedSum_set_checksum {F : Bytes} {i : Nat} {x : Byte} (h7 : 7 ≤ F.length)
    (hi : i = F.length - 3 ∨ i = F.length - 2) (hx : u8At F i ≠ x.toNat) :
    receivedSum (F.set i x) ≠ receivedSum F := by
  have e : F.length - 3 + 1 = F.length - 2 := by omega
  have hx' := x.isLt
  have hlow := u8At_lt F (F.length - 2)
  rw [receivedSum, receivedSum, u16At, u16At, List.length_set, e]
  rcases hi with rfl | rfl
  · rw [u8At_set_eq (by omega), u8At_set_ne (by omega)]
    omega
  · rw [u8At_set_ne (by omega), u8At_set_eq (by omega)]
    omega

/-- A change of one covered byte of a valid frame makes the two values differ: of a payload byte it changes the sum by
less than 256, of a checksum byte the received value. -/
theorem computedSum_ne_receivedSum_of_set {F : Bytes} {i : Nat} {x : Byte} (hv : Valid F) (h4 : 4 ≤ i)
    (h2 : i + 2 ≤ F.length) (hx : u8At F i ≠ x.toNat) : computedSum (F.set i x) ≠ receivedSum (F.set i x) := by
  obtain ⟨-, hlength, hsum⟩ := hv
  have hle := checkedSum_le hlength
  have hle' := checkedSum_le (lengthConsistent_set (x := x) hlength (show i ≠ 3 by omega))
  by_cases hpay : i + 3 < F.length
  · have hset := checkedSum_set_payload x h4 hpay
    rw [receivedSum_set_outside x hpay, ← hsum, computedSum, computedSum]
    omega
  · have hne := receivedSum_set_checksum hlength.1 (by omega) hx
    rw [computedSum, checkedSum_set_outside x (by omega) hlength.1, ← computedSum, hsum]
    exact hne.symm

/-- Settles O33: the length stays, so CHKSUM compares two values of the changed frame; they differ for a covered byte
(`computedSum_ne_receivedSum_of_set`), and neither reads REG or B2. -/
theorem checksumProtection : Obligations.ChecksumProtection := by
  unfold Obligations.ChecksumProtection
  intro F s i x hv hx
  have ⟨_, hlength, hsum⟩ := hv
  refine ⟨fun h4 h2 => ?_, fun hi => ?_⟩
  · have hx' : u8At F i ≠ x.toNat := by
      intro h
      apply hx
      rw [List.getElem?_eq_getElem (show i < F.length by omega)]
      simpa [u8At, show i < F.length by omega] using BitVec.eq_of_toNat_eq h
    have hne := computedSum_ne_receivedSum_of_set hv h4 h2 hx'
    refine ⟨_, _, ?_, exec_chksum_fail s (lengthConsistent_set hlength (by omega)) hne⟩
    exact fun h => hne ((ofNat16_eq_iff (computedSum_lt _) (receivedSum_lt _)).1 h)
  · have hlength' := lengthConsistent_set (x := x) hlength (show i ≠ 3 by omega)
    obtain ⟨h7, -⟩ := hlength
    refine ⟨exec_lenchk_pass s hlength', exec_chksum_pass s hlength' ?_⟩
    rw [receivedSum_set_outside x (by omega), computedSum, checkedSum_set_outside x (by omega) h7]
    exact hsum

/-- Settles O35: the frame is valid (`valid_frameOf`), so both stages pass it, and a valid frame is the frame of its own
fields (`frameOf_fields`). -/
theorem encoderGivesTheUniqueValidFrame : Obligations.EncoderGivesTheUniqueValidFrame := by
  unfold Obligations.EncoderGivesTheUniqueValidFrame
  intro reg b2 p h
  have hv := valid_frameOf (reg := reg) (b2 := b2) h
  refine ⟨length_frameOf reg b2 p, hv, fun s => ?_, fun F => ?_⟩
  · exact ⟨exec_lenchk_pass s hv.2.1, exec_chksum_pass s hv.2.1 hv.2.2⟩
  · constructor
    · rintro ⟨hF, rfl, rfl, rfl⟩
      exact (frameOf_fields hF).symm
    · rintro rfl
      exact ⟨hv, frameOf_reg reg b2 p, frameOf_b2 reg b2 p, payloadBytes_frameOf reg b2 p⟩

end Sys2Proof.Machine
end

/-! ## Decoding and encoding (R60, R68, R74, R175) -/

section
namespace Sys2Proof.Machine

/-- The row of a register id (R68). -/
def rowOf (reg : Byte) : OpcodeRow :=
  if reg = regStatus then .status else if reg = regCellv then .cellv else .unrec

theorem selectRow_headerWord (start reg b2 len : Byte) :
    selectRow (headerWord start reg b2 len) = if start = startByte then some (rowOf reg) else none := by
  refine (headerSelectsTheRow start reg b2 len).trans ?_
  change (if start ≠ startByte then none else if reg = regStatus then some OpcodeRow.status
    else if reg = regCellv then some .cellv else some .unrec) = _
  rw [ite_not, rowOf, apply_ite some, apply_ite some]

theorem instr_rowOf_status (b2 : Byte) (p : Bytes) : (rowOf regStatus).instr regStatus b2 p = .status b2 p := rfl

theorem instr_rowOf_cellv (b2 : Byte) (p : Bytes) : (rowOf regCellv).instr regCellv b2 p = .cellv b2 p := rfl

theorem instr_rowOf_other {reg : Byte} (h3 : reg ≠ regStatus) (h4 : reg ≠ regCellv) (b2 : Byte) (p : Bytes) :
    (rowOf reg).instr reg b2 p = .unrec reg b2 p := by
  rw [rowOf, if_neg h3, if_neg h4]
  rfl

/-- The instruction of a frame is well-formed and encodes to the frame. -/
theorem wf_instr_rowOf (reg b2 : Byte) {p : Bytes} (h : p.length ≤ 255) :
    ((rowOf reg).instr reg b2 p).wf = true ∧ encode ((rowOf reg).instr reg b2 p) = some (frameOf reg b2 p) := by
  by_cases h3 : reg = regStatus
  · subst h3
    exact ⟨decide_eq_true h, rfl⟩
  · by_cases h4 : reg = regCellv
    · subst h4
      exact ⟨decide_eq_true h, rfl⟩
    · rw [instr_rowOf_other h3 h4]
      exact ⟨by simp [Instr.wf, h3, h4, h], rfl⟩

/-- The format-R decoder reads a frame's own fields back. -/
theorem decodeFrame_frameOf (reg b2 : Byte) {p : Bytes} (h : p.length ≤ 255) :
    decodeFrame (frameOf reg b2 p) = .ok ((rowOf reg).instr reg b2 p) := by
  have hlen : (BitVec.ofNat 8 p.length).toNat = p.length := by
    rw [BitVec.toNat_ofNat]
    omega
  simp [decodeFrame, frameOf, selectRow_headerWord, hlen, extract_append_extract]

/-- Everything the format-R decoder accepts is the frame of some fields (R60, R62, R63, R112). -/
theorem decodeFrame_eq_ok {F : Bytes} {i : Instr} (h : decodeFrame F = .ok i) :
    ∃ reg b2 p, p.length ≤ 255 ∧ F = frameOf reg b2 p ∧ i = (rowOf reg).instr reg b2 p := by
  unfold decodeFrame at h
  split at h
  next start reg b2 len rest =>
    rw [selectRow_headerWord] at h
    by_cases hs : start = startByte
    · rw [if_pos hs] at h
      dsimp only at h
      split at h
      next hi lo stop hdrop =>
        split_ifs at h with hstop hsum
        cases h
        have hrest : rest = rest.take len.toNat ++ [hi, lo, stop] := by
          rw [← hdrop, List.take_append_drop]
        have hlen : (rest.take len.toNat).length = len.toNat := by
          have := congrArg List.length hdrop
          simp only [List.length_drop, List.length_cons, List.length_nil] at this
          rw [List.length_take]
          omega
        refine ⟨reg, b2, rest.take len.toNat, ?_, ?_, rfl⟩
        · have := len.isLt
          omega
        · rw [not_not] at hstop hsum
          rw [frameOf, hlen, hsum, extract_high_append, extract_low_append, ← hs, ← hstop, BitVec.ofNat_toNat,
            BitVec.setWidth_eq]
          exact congrArg (start :: reg :: b2 :: len :: ·) hrest
      next => cases h
    · rw [if_neg hs] at h
      cases h
  next => cases h

/-- No format-C constant is a valid frame (R177). -/
theorem not_valid_cmdRead : ¬ Valid cmdRead03 ∧ ¬ Valid cmdRead04 := by decide

theorem decode_frameOf (reg b2 : Byte) {p : Bytes} (h : p.length ≤ 255) :
    decode (frameOf reg b2 p) = .ok ((rowOf reg).instr reg b2 p) := by
  have hv := valid_frameOf (reg := reg) (b2 := b2) h
  have h03 : frameOf reg b2 p ≠ cmdRead03 := fun e => not_valid_cmdRead.1 (e ▸ hv)
  have h04 : frameOf reg b2 p ≠ cmdRead04 := fun e => not_valid_cmdRead.2 (e ▸ hv)
  rw [decode, if_neg h03, if_neg h04, decodeFrame_frameOf reg b2 h]

/-- What the decoder accepts: the two constants, and the frames of format R. -/
theorem decode_eq_ok {F : Bytes} {i : Instr} (h : decode F = .ok i) :
    F = cmdRead03 ∧ i = .rdreg3 ∨ F = cmdRead04 ∧ i = .rdreg4 ∨
      ∃ reg b2 p, p.length ≤ 255 ∧ F = frameOf reg b2 p ∧ i = (rowOf reg).instr reg b2 p := by
  unfold decode at h
  split_ifs at h with h03 h04
  · cases h
    exact .inl ⟨h03, rfl⟩
  · cases h
    exact .inr (.inl ⟨h04, rfl⟩)
  · exact .inr (.inr (decodeFrame_eq_ok h))

/-- Settles O36, by the constructors that have an encoding: a format-R instruction is the one of its frame's register id
(`decode_frameOf`), the commands are their constants. -/
theorem decodeOfEncode : Obligations.DecodeOfEncode := by
  unfold Obligations.DecodeOfEncode
  intro i bs hwf henc
  cases i with
  | feed c => cases henc
  | reset => cases henc
  | lenchk F => cases henc
  | chksum F => cases henc
  | status b2 p =>
    cases henc
    exact decode_frameOf regStatus b2 (of_decide_eq_true hwf)
  | cellv b2 p =>
    cases henc
    exact decode_frameOf regCellv b2 (of_decide_eq_true hwf)
  | unrec reg b2 p =>
    cases henc
    simp only [Instr.wf, Bool.and_eq_true, decide_eq_true_eq] at hwf
    obtain ⟨⟨h3, h4⟩, hp⟩ := hwf
    rw [decode_frameOf reg b2 hp, instr_rowOf_other h3 h4]
  | rdreg3 =>
    cases henc
    rfl
  | rdreg4 =>
    cases henc
    rfl

/-- Settles O37, by what the decoder accepts (`decode_eq_ok`). -/
theorem encodeOfDecode : Obligations.EncodeOfDecode := by
  unfold Obligations.EncodeOfDecode
  intro bs i h
  rcases decode_eq_ok h with ⟨rfl, rfl⟩ | ⟨rfl, rfl⟩ | ⟨reg, b2, p, hp, rfl, rfl⟩
  · exact ⟨rfl, rfl⟩
  · exact ⟨rfl, rfl⟩
  · exact wf_instr_rowOf reg b2 hp

/-- Settles O39: the six words are evaluated by the decoder. -/
theorem specWordsDecode : Obligations.SpecWordsDecode := by
  unfold Obligations.SpecWordsDecode
  decide

end Sys2Proof.Machine
end

/-! ## Steps: the request taken, the instruction run (R47) -/

section
namespace Sys2Proof.Machine

theorem step_cons {s : State} {r : Request} {rest : List Request} (h : s.inbox = r :: rest) :
    step s = exec r.instr { s with inbox := rest } := by
  rw [step, h]

theorem step_nil {s : State} (h : s.inbox = []) : step s = .next s := by
  rw [step, h]

/-- Settles O23, by the two equations of a step. -/
theorem stepRunsTheOldestRequest : Obligations.StepRunsTheOldestRequest := by
  unfold Obligations.StepRunsTheOldestRequest
  exact ⟨fun _ _ _ => step_cons, fun _ => step_nil⟩

/-- Settles O22: FEED of a non-empty chunk completes (`exec_feed_cons`), and so do the other requests. -/
theorem onlyTheEmptyChunkIsRefused : Obligations.OnlyTheEmptyChunkIsRefused := by
  unfold Obligations.OnlyTheEmptyChunkIsRefused
  intro s reason
  cases hin : s.inbox with
  | nil => simp [step_nil hin]
  | cons r rest =>
    rw [step_cons hin]
    cases r with
    | feed c =>
      cases c with
      | nil => simp [Request.instr, exec, execFeed, eq_comm]
      | cons c0 cs => simp [Request.instr, exec_feed_cons]
    | reset => simp [Request.instr, exec, execReset]
    | readCommand03 => simp [Request.instr, exec, execRdreg3]
    | readCommand04 => simp [Request.instr, exec, execRdreg4]

/-- On an empty buffer the frame of an instruction is that instruction: FEED hands it to the pipeline, whose stages pass
it, and DISPATCH routes it by its register id. -/
theorem exec_feed_frameOf {s : State} (he : s.pb = .empty) (reg b2 : Byte) {p : Bytes} (h : p.length ≤ 255) :
    exec (.feed (frameOf reg b2 p)) s = exec ((rowOf reg).instr reg b2 p) s := by
  obtain ⟨hb, hlength, hsum⟩ := valid_frameOf (reg := reg) (b2 := b2) h
  rw [exec_feed_of_bounded he hb, ← candidate_eq hb, candidate_of_valid hlength hsum, dispatch_eq hlength.1,
    frameOf_reg, frameOf_b2, payloadBytes_frameOf, rowOf]
  split_ifs with h3 h4 <;> rfl

/-- Feeding what decodes to a format-R instruction, on an empty buffer, runs that instruction. -/
theorem exec_feed_of_decode {s : State} {F : Bytes} {i : Instr} (he : s.pb = .empty) (h : decode F = .ok i)
    (h3 : i ≠ .rdreg3) (h4 : i ≠ .rdreg4) : exec (.feed F) s = exec i s := by
  rcases decode_eq_ok h with ⟨-, hi⟩ | ⟨-, hi⟩ | ⟨reg, b2, p, hp, rfl, rfl⟩
  · exact absurd hi h3
  · exact absurd hi h4
  · exact exec_feed_frameOf he reg b2 hp

/-- Settles O24, by `exec_feed_of_decode` in the state with the request taken. -/
theorem stepRunsTheDecodedInstruction : Obligations.StepRunsTheDecodedInstruction := by
  unfold Obligations.StepRunsTheDecodedInstruction
  intro s F rest i he hin hdec h3 h4
  rw [step_cons hin]
  exact exec_feed_of_decode he hdec h3 h4

theorem decode_tableBytes {nbits w : Nat} {i : Instr} (h : decodeTableWord nbits w = some i) :
    decode (tableBytes nbits w) = .ok i := by
  unfold decodeTableWord at h
  split at h <;> cases h
  assumption

/-- The request that fetches an instruction: the host's read of a command constant, a FEED of anything else. -/
theorem fetchRequest_of_decode {F : Bytes} {i : Instr} (h : decode F = .ok i) :
    (fetchRequest F).instr = if i = .rdreg3 ∨ i = .rdreg4 then i else .feed F := by
  rw [fetchRequest, h]
  cases i <;> rfl

/-- Settles O25: the word decodes to a command constant, which is read, or to a format-R instruction, whose frame is fed
on the emptied buffer (`exec_feed_of_decode`). -/
theorem fetchWordRunsItsInstruction : Obligations.FetchWordRunsItsInstruction := by
  unfold Obligations.FetchWordRunsItsInstruction
  intro s nbits w i hword
  have hdec := decode_tableBytes hword
  have hstep : step (s.withFetchWord nbits w)
      = exec (fetchRequest (tableBytes nbits w)).instr { s with pb := .empty } := step_cons rfl
  rw [hstep, fetchRequest_of_decode hdec]
  split_ifs with hi
  · rfl
  · rw [not_or] at hi
    exact exec_feed_of_decode rfl hdec hi.1 hi.2

/-- Settles O19, by `exec_cases` on the oldest request. -/
theorem stepFrame : Obligations.StepFrame := by
  unfold Obligations.StepFrame
  intro s s' hstep
  rcases step_cases hstep with ⟨hin, rfl⟩ | ⟨r, rest, hin, hexec⟩
  · exact ⟨rfl, by rw [hin, List.tail_nil], [], by rw [List.append_nil], by simp⟩
  · obtain ⟨hparams, hinbox, hevents, -⟩ := exec_cases hexec
    exact ⟨hparams, by rw [hinbox, hin, List.tail_cons], hevents⟩

/-- A buffer that is held after a step begins with what it held before. -/
theorem contents_prefix_of_step {s s' : State} {b0 : Byte} {bs : Bytes} (hstep : step s = .next s')
    (hpb' : s'.pb = .hold b0 bs) : s.pb.contents <+: b0 :: bs := by
  have hkept (h : s'.pb = s.pb) : s.pb.contents <+: b0 :: bs := by rw [← h, hpb', contents_hold]
  rcases step_cases hstep with ⟨-, rfl⟩ | ⟨r, rest, -, hexec⟩
  · exact hkept rfl
  obtain ⟨-, -, -, hsame | ⟨-, hempty⟩ | ⟨c0, cs, -, hfeed⟩⟩ := exec_cases hexec
  · exact hkept hsame
  · rw [hempty] at hpb'
    cases hpb'
  · rcases reassemble_eq_hold (hfeed.symm.trans hpb') with hsame | happend
    · exact hkept (hpb'.trans hsame.symm)
    · exact happend ▸ List.prefix_append _ _

/-- Settles O18, by `contents_prefix_of_step` on a buffer held before. -/
theorem heldBufferOnlyGrowsAtTheEnd : Obligations.HeldBufferOnlyGrowsAtTheEnd := by
  unfold Obligations.HeldBufferOnlyGrowsAtTheEnd
  intro s s' b0 b0' bs bs' hstep hpb hpb'
  have hprefix := contents_prefix_of_step hstep hpb'
  rw [hpb, contents_hold, List.cons_prefix_cons] at hprefix
  exact ⟨hprefix.1.symm, hprefix.2⟩

end Sys2Proof.Machine
end

/-! ## The meanings of the decoders, and the event of a frame (R110, R125 to R127) -/

section
namespace Sys2Proof.Machine

/-- What STATUS decodes from a payload: a record when both length tests of R137 pass. -/
def statusDecoded (prm : Params) (p : Bytes) : DecodedRecord :=
  if p.length < fixedLen prm.layout ∨
      p.length < lenWithReadings prm.layout (fieldAt p prm.layout.ntcCount.offset prm.layout.ntcCount.width)
    then .shortPayload else .status (recordOf prm p)

theorem exec_status (b2 : Byte) (p : Bytes) (s : State) :
    exec (.status b2 p) s = .next (s.emit ((statusDecoded s.params p).event (frameOf regStatus b2 p))) := by
  show execStatus b2 p s = _
  rw [execStatus, decodeStatus_eq, emitDecoded_ok, statusDecoded]

theorem exec_cellv (b2 : Byte) (p : Bytes) (s : State) :
    exec (.cellv b2 p) s =
      .next (s.emit (.cellVoltages ((List.range (p.length / 2)).map fun i => u16At p (2 * i)))) := by
  show execCellv b2 p s = _
  rw [execCellv, decodeCellv_eq, emitDecoded_ok]
  rfl

/-- The two events of STATUS (R127). -/
theorem statusDecoded_event_cases (prm : Params) (p raw : Bytes) :
    (∃ r, (statusDecoded prm p).event raw = .status r) ∨
      (statusDecoded prm p).event raw = .decodeError .shortPayload (some raw) := by
  rw [statusDecoded]
  split_ifs
  · exact .inr rfl
  · exact .inl ⟨_, rfl⟩

theorem length_payloadBytes_le {F : Bytes} (h : LengthConsistent F) : (payloadBytes F).length ≤ 255 := by
  have := u8At_lt F 3
  obtain ⟨-, hlen⟩ := h
  rw [length_payloadBytes]
  omega

/-- A valid frame fed on an empty buffer runs the instruction of its register id on its own fields. -/
theorem exec_feed_of_valid {s : State} {F : Bytes} (he : s.pb = .empty) (hv : Valid F) :
    exec (.feed F) s = exec ((rowOf (F.getD 1 0)).instr (F.getD 1 0) (F.getD 2 0) (payloadBytes F)) s := by
  have h := exec_feed_frameOf he (F.getD 1 0) (F.getD 2 0) (length_payloadBytes_le hv.2.1)
  rwa [frameOf_fields hv] at h

theorem getD_eq_of_u8At {F : Bytes} {i : Nat} {x : Byte} (h : u8At F i = x.toNat) : F.getD i 0 = x :=
  BitVec.eq_of_toNat_eq h

theorem exec_feed_of_valid_status {s : State} {F : Bytes} (he : s.pb = .empty) (hv : Valid F) (h3 : u8At F 1 = 3) :
    exec (.feed F) s = exec (.status (F.getD 2 0) (payloadBytes F)) s := by
  rw [exec_feed_of_valid he hv, getD_eq_of_u8At (x := regStatus) h3, instr_rowOf_status]

theorem exec_feed_of_valid_cellv {s : State} {F : Bytes} (he : s.pb = .empty) (hv : Valid F) (h4 : u8At F 1 = 4) :
    exec (.feed F) s = exec (.cellv (F.getD 2 0) (payloadBytes F)) s := by
  rw [exec_feed_of_valid he hv, getD_eq_of_u8At (x := regCellv) h4, instr_rowOf_cellv]

theorem pipelineEvent_of_not_lengthConsistent {prm : Params} {F : Bytes} (h : ¬ LengthConsistent F) :
    pipelineEvent prm F = .decodeError .lengthMismatch (some F) := by
  rw [pipelineEvent, if_neg h]

theorem pipelineEvent_of_checksum_ne {prm : Params} {F : Bytes} (h : LengthConsistent F)
    (hc : computedSum F ≠ receivedSum F) :
    pipelineEvent prm F = .decodeError
      (.checksumMismatch (BitVec.ofNat 16 (computedSum F)) (BitVec.ofNat 16 (receivedSum F))) (some F) := by
  rw [pipelineEvent, if_pos h, if_neg hc]

/-- An error of the pipeline carries the frame (D26), and is none of the reassembler's two. -/
theorem pipelineEvent_error {prm : Params} {F : Bytes} {reason : Reason} {raw : Option Bytes}
    (h : pipelineEvent prm F = .decodeError reason raw) :
    raw = some F ∧ reason ≠ .unframed ∧ reason ≠ .overflow := by
  unfold pipelineEvent at h
  split_ifs at h <;> cases h <;> exact ⟨rfl, nofun, nofun⟩

/-- Settles O2: the chunk is the candidate, and its event is the pipeline's (`exec_feed_of_bounded`, `candidate_eq`),
whose errors carry it (`pipelineEvent_error`); DD 77 is shorter than the 7 bytes of LENCHK. -/
theorem framedChunkOnEmptyBufferIsACandidate : Obligations.FramedChunkOnEmptyBufferIsACandidate := by
  unfold Obligations.FramedChunkOnEmptyBufferIsACandidate
  intro s c he hb
  have hfeed := exec_feed_of_bounded he hb
  refine ⟨_, hfeed, hfeed.trans (candidate_eq hb s).symm, fun reason raw h => (pipelineEvent_error h).1, ?_⟩
  rintro rfl
  exact pipelineEvent_of_not_lengthConsistent (by decide)

/-- Settles O3, one case of the pipeline's event a clause; past both checks the FEED is the instruction of the register
id (`exec_feed_of_valid_status`, `exec_feed_of_valid_cellv`). -/
theorem pipelineStagesInOrder : Obligations.PipelineStagesInOrder := by
  unfold Obligations.PipelineStagesInOrder
  intro s c he hb
  have hfeed := exec_feed_of_bounded he hb
  refine ⟨_, hfeed, pipelineEvent_of_not_lengthConsistent, pipelineEvent_of_checksum_ne, fun hv h3 => ?_,
    fun hv h4 => ?_, pipelineEvent_of_unknown_register⟩
  · exact (exec_feed_of_valid_status he hv h3).symm.trans hfeed
  · exact (exec_feed_of_valid_cellv he hv h4).symm.trans hfeed

/-- Settles O46: STATUS emits what it decoded (`exec_status`), in every layout. -/
theorem statusCompletesForEveryLayout : Obligations.StatusCompletesForEveryLayout := by
  unfold Obligations.StatusCompletesForEveryLayout
  intro s b2 p
  exact ⟨_, exec_status b2 p s, statusDecoded_event_cases s.params p _⟩

/-- Settles O50: the meaning of CELLV (`exec_cellv`), and for a fed frame the same meaning on its payload, whose byte `j`
is the frame's byte `4 + j`. -/
theorem cellVoltages : Obligations.CellVoltages := by
  unfold Obligations.CellVoltages
  refine ⟨fun s b2 p => exec_cellv b2 p s, fun s F he hv h4 => ?_⟩
  have ⟨_, ⟨h7, hlen⟩, _⟩ := hv
  rw [exec_feed_of_valid_cellv he hv h4, exec_cellv, length_payloadBytes, show F.length - 7 = u8At F 3 by omega]
  have hvalues : (List.range (u8At F 3 / 2)).map (fun i => u16At (payloadBytes F) (2 * i)) =
      (List.range (u8At F 3 / 2)).map fun i => u8At F (4 + 2 * i) * 256 + u8At F (5 + 2 * i) := by
    apply List.map_congr_left
    intro i hi
    have hi := List.mem_range.1 hi
    rw [u16At, u8At_payloadBytes (by omega), u8At_payloadBytes (by omega), show 4 + (2 * i + 1) = 5 + 2 * i by omega]
  rw [hvalues]
  rfl

/-- Settles O52, by the instruction each register id selects. -/
theorem eventsOfAValidFrame : Obligations.EventsOfAValidFrame := by
  unfold Obligations.EventsOfAValidFrame
  intro s F he hv
  have hfeed := exec_feed_of_bounded he hv.1
  have hevent {e : Event} (h : exec (.feed F) s = .next (s.emit e)) : pipelineEvent s.params F = e := by
    rw [hfeed] at h
    simpa using congrArg State.events (Host.Outcome.next.inj h)
  refine ⟨_, hfeed, fun h3 => ?_, fun h4 => ?_, fun h3 h4 => ⟨_, pipelineEvent_of_unknown_register hv h3 h4⟩⟩
  · have hframe := frameOf_fields hv
    rw [getD_eq_of_u8At (x := regStatus) h3] at hframe
    rw [hevent ((exec_feed_of_valid_status he hv h3).trans (exec_status _ _ s)), hframe]
    exact statusDecoded_event_cases s.params (payloadBytes F) F
  · exact ⟨_, hevent ((exec_feed_of_valid_cellv he hv h4).trans (exec_cellv _ _ s))⟩

/-- Settles O54: both constants are framed and length-consistent with another checksum than R112's, and A5 is no register
of a decoder. -/
theorem commandFedBackIsAMismatch : Obligations.CommandFedBackIsAMismatch := by
  unfold Obligations.CommandFedBackIsAMismatch
  refine ⟨fun s he => ⟨?_, ?_⟩, fun s F he hv hreg => ?_⟩
  · rw [exec_feed_of_bounded he (by decide), pipelineEvent_of_checksum_ne (by decide) (by decide)]
    rfl
  · rw [exec_feed_of_bounded he (by decide), pipelineEvent_of_checksum_ne (by decide) (by decide)]
    rfl
  · rw [exec_feed_of_bounded he hv.1, pipelineEvent_of_unknown_register hv (by omega) (by omega),
      getD_eq_of_u8At (x := 0xA5) hreg]
    rfl

/-- Settles O53: the two halves of the command store are the two constants. -/
theorem commandConstants : Obligations.CommandConstants := by
  unfold Obligations.CommandConstants
  exact fun _ => ⟨rfl, rfl⟩

end Sys2Proof.Machine
end

/-! ## FEED, case by case (R92 to R99, R189, R190) -/

section
namespace Sys2Proof.Machine

/-- Settles O1: RESET writes EMPTY, the buffer of the reset state. -/
theorem resetEmptiesTheBuffer : Obligations.ResetEmptiesTheBuffer := by
  unfold Obligations.ResetEmptiesTheBuffer
  exact fun _ => ⟨rfl, rfl, rfl⟩

/-- Settles O8: FEED has no other answer to the empty chunk. -/
theorem emptyChunkIsRefused : Obligations.EmptyChunkIsRefused := by
  unfold Obligations.EmptyChunkIsRefused
  exact fun _ => rfl

/-- Settles O15, field by field of the reset state. -/
theorem resetStateIsEmptyWithDefaults : Obligations.ResetStateIsEmptyWithDefaults := by
  unfold Obligations.ResetStateIsEmptyWithDefaults
  exact ⟨rfl, rfl, rfl, rfl, rfl, rfl, rfl, rfl, rfl, rfl, rfl⟩

/-- Settles O27, by the constructors of the reasons. -/
theorem reasonCodes : Obligations.ReasonCodes := by
  unfold Obligations.ReasonCodes
  exact ⟨fun _ _ => rfl, fun _ => rfl, rfl, rfl, rfl, rfl⟩

/-- Settles O5, by `exec_feed_same`. -/
theorem sameLeadingByteIsDropped : Obligations.SameLeadingByteIsDropped := by
  unfold Obligations.SameLeadingByteIsDropped
  exact fun _ _ _ _ => exec_feed_same

/-- Settles O4: the chunk is stored or reported by `exec_feed_store` and `exec_feed_unframed`. -/
theorem unframedChunkOnEmptyBuffer : Obligations.UnframedChunkOnEmptyBuffer := by
  unfold Obligations.UnframedChunkOnEmptyBuffer
  intro s c0 cs he hb
  exact ⟨fun hc => exec_feed_store he hb (.inl hc), fun hc hp => exec_feed_unframed he hb hc hp,
    fun _ hp => exec_feed_store he hb (.inr hp)⟩

/-- An Overflow empties the buffer and carries no bytes (R97). -/
theorem exec_feed_overflow {s : State} {c0 : Byte} {cs : Bytes}
    (h : reassemble s.params s.pb c0 cs = (.empty, .error .overflow none)) :
    exec (.feed (c0 :: cs)) s = .next ((s.setPb .empty).emit (.decodeError .overflow none)) :=
  exec_feed_of_reassemble h

/-- Settles O7: a store and an append beyond the cap give the same answer of the reassembler. -/
theorem storeBeyondCapacityOverflows : Obligations.StoreBeyondCapacityOverflows := by
  unfold Obligations.StoreBeyondCapacityOverflows
  intro s n c0 cs hcap
  refine ⟨fun he hb hs hn => exec_feed_overflow ?_, fun b0 bs hpb hne hn => exec_feed_overflow ?_⟩
  · rw [he, reassemble_store_overflow hb hs (overCap_eq_true.2 ⟨n, hcap, hn⟩)]
  · rw [hpb, reassemble_append_overflow hne (overCap_eq_true.2 ⟨n, hcap, hn⟩)]

/-- Settles O9, by what the reassembler yielded: nothing, or one event with the buffer emptied
(`reassemble_pb_empty`). -/
theorem feedCompletesWithAtMostOneEvent : Obligations.FeedCompletesWithAtMostOneEvent := by
  unfold Obligations.FeedCompletesWithAtMostOneEvent
  intro s c hc
  obtain ⟨c0, cs, rfl⟩ := List.exists_cons_of_ne_nil hc
  have hempty := reassemble_pb_empty (prm := s.params) (pb := s.pb) (c0 := c0) (cs := cs)
  refine ⟨_, _, exec_feed_cons c0 cs s, ?_⟩
  cases hy : (reassemble s.params s.pb c0 cs).2 with
  | nothing => exact .inl rfl
  | candidate F => exact .inr ⟨_, rfl, hempty (by simp [hy])⟩
  | error reason raw => exact .inr ⟨_, rfl, hempty (by simp [hy])⟩

/-- Settles O11, by the two ways a buffer is held afterwards (`reassemble_eq_hold`). -/
theorem feedWritesWholeChunks : Obligations.FeedWritesWholeChunks := by
  unfold Obligations.FeedWritesWholeChunks
  intro s s' chunk b0 bs hexec hpb'
  cases chunk with
  | nil => cases hexec
  | cons c0 cs =>
    rw [exec_feed_cons] at hexec
    cases hexec
    rcases reassemble_eq_hold hpb' with hsame | happend
    · exact .inl fun a => by rw [hpb', hsame]
    · refine .inr fun a => ?_
      rw [hpb', PartialBuffer.read, contents_hold, happend, List.getElem?_append]
      rfl

/-- Settles O12: the event is the pipeline's, a function of the parameters and the frame, and it leaves the buffer
empty for the second FEED. -/
theorem wholeFrameIsIdempotent : Obligations.WholeFrameIsIdempotent := by
  unfold Obligations.WholeFrameIsIdempotent
  intro prm f hb
  refine ⟨pipelineEvent prm f, ?_⟩
  rintro s rfl he
  have hfirst := exec_feed_of_bounded he hb
  have hsecond := exec_feed_of_bounded (s := s.emit (pipelineEvent s.params f)) he hb
  refine ⟨hfirst, ?_⟩
  rw [feedAll_cons_of_next hfirst, feedAll_cons_of_next hsecond, feedAll]
  simp [State.emit]

/-- What the added error says of the parameters (D4, D5): the reassembler raises Unframed under DISCARD and Overflow
under a finite cap, and the pipeline raises neither. -/
theorem step_added_error {s s' : State} {reason : Reason} {raw : Option Bytes} (hstep : step s = .next s')
    (hadded : s'.events = s.events ++ [.decodeError reason raw]) :
    (reason = .unframed → s.params.policy = .discard) ∧ (reason = .overflow → s.params.bufCap ≠ none) := by
  have hsilent : s'.events ≠ s.events := by
    rw [hadded]
    simp
  rcases step_cases hstep with ⟨-, rfl⟩ | ⟨r, rest, -, hexec⟩
  · exact absurd rfl hsilent
  cases r with
  | reset => cases hexec; exact absurd rfl hsilent
  | readCommand03 => cases hexec; exact absurd rfl hsilent
  | readCommand04 => cases hexec; exact absurd rfl hsilent
  | feed c =>
    cases c with
    | nil => cases hexec
    | cons c0 cs =>
      rw [Request.instr, exec_feed_cons] at hexec
      cases hexec
      have hevents := List.append_cancel_left hadded
      cases hy : (reassemble s.params s.pb c0 cs).2 with
      | nothing =>
        rw [hy] at hevents
        cases hevents
      | candidate F =>
        rw [hy] at hevents
        obtain ⟨-, hunframed, hoverflow⟩ := pipelineEvent_error (List.singleton_injective hevents)
        exact ⟨fun h => absurd h hunframed, fun h => absurd h hoverflow⟩
      | error reason' raw' =>
        rw [hy] at hevents
        cases hevents
        rcases reassemble_error hy with ⟨rfl, hp⟩ | ⟨rfl, hcap⟩
        · exact ⟨fun _ => hp, nofun⟩
        · exact ⟨nofun, fun _ => hcap⟩

/-- Settles O28, by `step_added_error`. -/
theorem reasonsExcludedByParameters : Obligations.ReasonsExcludedByParameters := by
  unfold Obligations.ReasonsExcludedByParameters
  intro s s' hstep
  refine ⟨fun hcap raw hadded => (step_added_error hstep hadded).2 rfl hcap, fun hp raw hadded => ?_⟩
  have hdiscard := (step_added_error hstep hadded).1 rfl
  rw [hp] at hdiscard
  cases hdiscard

/-- What any instruction but FEED and RESET does to the state: it adds one event, or one command read, or nothing. -/
theorem exec_other_cases {i : Instr} {s s' : State} (hfeed : ∀ c, i ≠ .feed c) (hreset : i ≠ .reset)
    (h : exec i s = .next s') :
    s' = s ∨ (∃ e, s' = s.emit e) ∨ (i = .rdreg3 ∨ i = .rdreg4) ∧ ∃ b, s' = s.recordRead b := by
  cases i with
  | feed c => exact absurd rfl (hfeed c)
  | reset => exact absurd rfl hreset
  | lenchk F =>
    by_cases hl : LengthConsistent F
    · rw [exec_lenchk_pass s hl] at h
      cases h
      exact .inl rfl
    · rw [exec_lenchk_fail s hl] at h
      cases h
      exact .inr (.inl ⟨_, rfl⟩)
  | chksum F =>
    by_cases h4 : 4 ≤ F.length
    · rcases exec_chksum_of_four_le s h4 with hpass | ⟨e, hfail⟩
      · rw [hpass] at h
        cases h
        exact .inl rfl
      · rw [hfail] at h
        cases h
        exact .inr (.inl ⟨e, rfl⟩)
    · rw [exec_chksum_of_lt_four s (not_le.1 h4)] at h
      cases h
  | status b2 p =>
    rw [exec_status] at h
    cases h
    exact .inr (.inl ⟨_, rfl⟩)
  | cellv b2 p =>
    rw [exec_cellv] at h
    cases h
    exact .inr (.inl ⟨_, rfl⟩)
  | unrec reg b2 p =>
    rw [exec_unrec] at h
    cases h
    exact .inr (.inl ⟨_, rfl⟩)
  | rdreg3 => cases h; exact .inr (.inr ⟨.inl rfl, _, rfl⟩)
  | rdreg4 => cases h; exact .inr (.inr ⟨.inr rfl, _, rfl⟩)

/-- Settles O20, by what these instructions do (`exec_other_cases`): neither an event nor a command read touches the
buffer. -/
theorem onlyFeedAndResetWriteTheBuffer : Obligations.OnlyFeedAndResetWriteTheBuffer := by
  unfold Obligations.OnlyFeedAndResetWriteTheBuffer
  intro i s s' hfeed hreset hexec
  rcases exec_other_cases hfeed hreset hexec with rfl | ⟨e, rfl⟩ | ⟨hread, b, rfl⟩
  · exact ⟨rfl, fun _ => rfl, rfl, rfl, fun _ _ => rfl⟩
  · exact ⟨rfl, fun _ => rfl, rfl, rfl, fun _ _ => rfl⟩
  · refine ⟨rfl, fun _ => rfl, rfl, rfl, fun h3 h4 => ?_⟩
    exact absurd hread (not_or.2 ⟨h3, h4⟩)

/-- Settles O29: the cells pair each index below `|b|` with its byte. -/
theorem bufferCellsAreWhatCanBeRead : Obligations.BufferCellsAreWhatCanBeRead := by
  unfold Obligations.BufferCellsAreWhatCanBeRead
  intro pb a b
  rw [PartialBuffer.cells, PartialBuffer.read, PartialBuffer.length, List.mem_iff_getElem?]
  simp only [List.getElem?_zip_eq_some]
  constructor
  · rintro ⟨i, hi, hb⟩
    obtain ⟨hlt, hia⟩ := List.getElem?_eq_some_iff.1 hi
    rw [List.getElem_range] at hia
    rwa [← hia]
  · intro hb
    exact ⟨a, List.getElem?_range (List.getElem?_eq_some_iff.1 hb).1, hb⟩

end Sys2Proof.Machine
end

/-! ## Several receivers (R31, R195) -/

section
namespace Sys2Proof.Machine

/-- What a step of receiver `k` did: there is none, or it made one step of its own and the others stand. -/
theorem stepAt_eq_next_iff {rs rs' : Receivers} {k : Nat} :
    rs.stepAt k = .next rs' ↔ rs.units[k]? = none ∧ rs' = rs ∨
      ∃ s t, rs.units[k]? = some s ∧ step s = .next t ∧ rs' = ⟨rs.units.set k t⟩ := by
  unfold Receivers.stepAt
  cases hk : rs.units[k]? with
  | none => simp [eq_comm]
  | some s => cases hs : step s <;> simp [hs, eq_comm]

theorem stepAt_getElem?_ne {rs rs' : Receivers} {j k : Nat} (hjk : j ≠ k) (h : rs.stepAt j = .next rs') :
    rs'.units[k]? = rs.units[k]? := by
  rcases stepAt_eq_next_iff.1 h with ⟨-, rfl⟩ | ⟨s, t, -, -, rfl⟩
  · rfl
  · exact List.getElem?_set_ne hjk

/-- Settles O26: each step reads and writes its own place in the list only, so the two writes commute. -/
theorem receiversDoNotInterfere : Obligations.ReceiversDoNotInterfere := by
  unfold Obligations.ReceiversDoNotInterfere
  intro rs rs' j k hjk hj
  have hkept := stepAt_getElem?_ne hjk hj
  refine ⟨hkept, fun rs'' hk => ?_⟩
  rcases stepAt_eq_next_iff.1 hk with ⟨hnone, rfl⟩ | ⟨sk, tk, hsk, hstepk, rfl⟩
  · rw [hkept] at hnone
    exact ⟨rs, stepAt_eq_next_iff.2 (.inl ⟨hnone, rfl⟩), hj⟩
  · rw [hkept] at hsk
    refine ⟨⟨rs.units.set k tk⟩, stepAt_eq_next_iff.2 (.inr ⟨sk, tk, hsk, hstepk, rfl⟩), stepAt_eq_next_iff.2 ?_⟩
    rw [show (⟨rs.units.set k tk⟩ : Receivers).units[j]? = rs.units[j]? from List.getElem?_set_ne hjk.symm]
    rcases stepAt_eq_next_iff.1 hj with ⟨hnone, rfl⟩ | ⟨sj, tj, hsj, hstepj, rfl⟩
    · exact .inl ⟨hnone, rfl⟩
    · exact .inr ⟨sj, tj, hsj, hstepj, congrArg Receivers.mk (List.set_comm tj tk hjk)⟩

end Sys2Proof.Machine
end

/-! ## Frames lost to the boundary test (R96, R219, R220) -/

section
namespace Sys2Proof.Machine

/-- A framed chunk that is a length-consistent frame with a surplus, or is a proper beginning of one, is a
LengthMismatch. -/
theorem exec_feed_lengthMismatch {s : State} {c : Bytes} (he : s.pb = .empty) (hb : Bounded c)
    (hl : ¬ LengthConsistent c) :
    exec (.feed c) s = .next (s.emit (.decodeError .lengthMismatch (some c))) := by
  rw [exec_feed_of_bounded he hb, pipelineEvent_of_not_lengthConsistent hl]

theorem not_lengthConsistent_append {a b : Bytes} (ha : LengthConsistent a) (hb : b ≠ []) :
    ¬ LengthConsistent (a ++ b) := fun hab => hb (eq_nil_of_lengthConsistent_append ha hab)

/-- Settles O55: the beginning is framed but no proper beginning of a frame is length-consistent; the rest, not
beginning with DD, is then an unframed chunk on an empty buffer. -/
theorem earlyCompletionLosesTheFrame : Obligations.EarlyCompletionLosesTheFrame := by
  unfold Obligations.EarlyCompletionLosesTheFrame
  intro s a b he hv hlast hne
  obtain ⟨⟨hhead, -⟩, hlength, -⟩ := hv
  have hane : a ≠ [] := by
    rintro rfl
    cases hlast
  rw [List.head?_append_of_ne_nil _ hane] at hhead
  have hfirst := exec_feed_lengthMismatch he ⟨hhead, hlast⟩
    (fun ha => not_lengthConsistent_append ha hne hlength)
  obtain ⟨b0, bs, rfl⟩ := List.exists_cons_of_ne_nil hne
  have hb (h : (b0 :: bs).head? ≠ some 0xDD) : ¬ Bounded (b0 :: bs) := fun hb => h hb.1
  have hb0 (h : (b0 :: bs).head? ≠ some 0xDD) : b0 ≠ startByte := fun e => h (congrArg some e)
  refine ⟨hfirst, fun hhd hp => ?_, fun hhd hp hcap => ?_⟩
  · have hrest := exec_feed_unframed (s := s.emit (.decodeError .lengthMismatch (some a))) he
      (hb hhd) (hb0 hhd) hp
    rw [feedAll_cons_of_next hfirst, feedAll_cons_of_next hrest, feedAll]
    simp [State.emit]
  · have hrest := exec_feed_store (s := s.emit (.decodeError .lengthMismatch (some a))) he
      (hb hhd) (.inr hp) (by simp [hcap])
    rw [feedAll_cons_of_next hfirst, feedAll_cons_of_next hrest, feedAll]
    rfl

theorem bounded_append {a b : Bytes} (ha : a.head? = some 0xDD) (hb : b.getLast? = some 0x77) : Bounded (a ++ b) :=
  ⟨by rw [List.head?_append, ha]; rfl, by rw [List.getLast?_append, hb]; rfl⟩

/-- Settles O56: a length-consistent frame with a surplus behind it is not length-consistent; a held buffer and the chunk
are one candidate when the chunk ends with 77 (`bounded_cons_append`), and stay held otherwise. -/
theorem framesInOneChunkAreNotSeparated : Obligations.FramesInOneChunkAreNotSeparated := by
  unfold Obligations.FramesInOneChunkAreNotSeparated
  refine ⟨fun s f g he hf hg => ?_, fun s b0 bs t h hpb hv ht hh hne hcap => ?_⟩
  · obtain ⟨⟨hfhead, -⟩, hflength, -⟩ := hf
    obtain ⟨⟨-, hglast⟩, -⟩ := hg
    have hgne : g ≠ [] := by
      rintro rfl
      cases hglast
    have hb := bounded_append hfhead hglast
    exact exec_feed_lengthMismatch he hb (not_lengthConsistent_append hflength hgne)
  · obtain ⟨hb, hlength, -⟩ := hv
    obtain ⟨t0, ts, rfl⟩ := List.exists_cons_of_ne_nil ht
    have ht0 : t0 ≠ b0 := fun e => hne (congrArg some e)
    have hb0 := ((bounded_cons_append ht).1 hb).1
    have hbounded : Bounded (b0 :: bs ++ (t0 :: ts ++ h)) ↔ h.getLast? = some 0x77 := by
      rw [bounded_cons_append (by simp), List.getLast?_append_of_ne_nil _ hh]
      exact and_iff_right hb0
    split_ifs with hlast
    · have hl := not_lengthConsistent_append hlength hh
      rw [List.append_assoc] at hl
      have hfeed := exec_feed_append_of_bounded (cs := ts ++ h) hpb ht0 (by simp [hcap]) (hbounded.2 hlast)
      rw [← List.cons_append, pipelineEvent_of_not_lengthConsistent hl] at hfeed
      exact hfeed
    · exact exec_feed_append_of_not_bounded hpb ht0 (by simp [hcap]) (fun hb' => hlast (hbounded.1 hb'))

end Sys2Proof.Machine
end

/-! ## A frame in chunks (R100) -/

section
namespace Sys2Proof.Machine

/-- The chunks `cs` are reassembled from the buffer `pb` to the one candidate `f`, which the last of them gives. -/
def Reassembles (prm : Params) (pb : PartialBuffer) (cs : List Bytes) (f : Bytes) : Prop :=
  reassembleAll prm cs pb = (.empty, List.replicate (cs.length - 1) .nothing ++ [.candidate f])

/-- The conditions of R100 on the chunks after the first byte of the frame is held. -/
def ChunksPass (prm : Params) (cs : List Bytes) (f : Bytes) : Prop :=
  (∀ c ∈ cs, c.head? ≠ some 0xDD) ∧ (∀ c ∈ cs.dropLast, c.getLast? ≠ some 0x77) ∧
    ∀ n, prm.bufCap = some n → f.length ≤ n

section
variable {prm : Params} {pb : PartialBuffer} {b0 c0 : Byte} {bs ct f : Bytes} {cs : List Bytes}

theorem not_reassembles_nil : ¬ Reassembles prm pb [] f := by
  simp [Reassembles, reassembleAll]

theorem reassembles_singleton_iff :
    Reassembles prm pb [c0 :: ct] f ↔ reassemble prm pb c0 ct = (.empty, .candidate f) := by
  simp [Reassembles, reassembleAll, Prod.ext_iff]

theorem reassembles_cons_iff (hcs : cs ≠ []) :
    Reassembles prm pb ((c0 :: ct) :: cs) f ↔
      (reassemble prm pb c0 ct).2 = .nothing ∧ Reassembles prm (reassemble prm pb c0 ct).1 cs f := by
  obtain ⟨d, ds, rfl⟩ := List.exists_cons_of_ne_nil hcs
  simp only [Reassembles, reassembleAll, Prod.ext_iff, List.length_cons, Nat.add_sub_cancel, List.replicate_succ,
    List.cons_append, List.cons.injEq]
  tauto

/-- A candidate is the whole buffer with the whole chunk behind it (R92, R95). -/
theorem reassemble_eq_candidate (h : (reassemble prm pb c0 ct).2 = .candidate f) : f = pb.contents ++ c0 :: ct := by
  rcases reassemble_cases prm pb c0 ct with ⟨rfl, -, e⟩ | ⟨-, -, -, -, e⟩ | ⟨-, -, -, -, e⟩ | ⟨-, -, -, -, e⟩ |
      ⟨_, _, -, -, e⟩ | ⟨_, _, -, -, -, e⟩ | ⟨_, _, rfl, -, -, -, e⟩ | ⟨_, _, -, -, -, -, e⟩ <;>
    rw [e] at h <;> cases h <;> rfl

theorem length_contents_reassemble_le :
    (reassemble prm pb c0 ct).1.contents.length ≤ pb.contents.length + (c0 :: ct).length := by
  cases hr : (reassemble prm pb c0 ct).1 with
  | empty => simp
  | hold b0 bs =>
    rcases reassemble_eq_hold hr with rfl | happend
    · exact Nat.le_add_right _ _
    · rw [contents_hold, happend, List.length_append]

/-- No byte of a candidate comes from elsewhere than the buffer and the chunks. -/
theorem length_le_of_reassembles (hne : ∀ c ∈ cs, c ≠ []) (h : Reassembles prm pb cs f) :
    f.length ≤ pb.contents.length + cs.flatten.length := by
  induction cs generalizing pb with
  | nil => exact absurd h not_reassembles_nil
  | cons c cs ih =>
    obtain ⟨hc, htail⟩ := List.forall_mem_cons.1 hne
    obtain ⟨c0, ct, rfl⟩ := List.exists_cons_of_ne_nil hc
    by_cases hcs : cs = []
    · subst hcs
      rw [reassemble_eq_candidate (congrArg Prod.snd (reassembles_singleton_iff.1 h))]
      simp
    · have hrest := ih htail ((reassembles_cons_iff hcs).1 h).2
      have hfirst := length_contents_reassemble_le (prm := prm) (pb := pb) (c0 := c0) (ct := ct)
      rw [List.flatten_cons, List.length_append]
      omega

theorem not_chunksPass_of_overCap {n : Nat} (hcap : overCap prm.bufCap n = true) (hn : n ≤ f.length) :
    ¬ ChunksPass prm cs f := by
  rintro ⟨-, -, hle⟩
  obtain ⟨m, hm, hlt⟩ := overCap_eq_true.1 hcap
  have := hle m hm
  omega

theorem chunksPass_cons_iff (hcs : cs ≠ []) :
    ChunksPass prm ((c0 :: ct) :: cs) f ↔
      (c0 ≠ 0xDD ∧ (c0 :: ct).getLast? ≠ some 0x77) ∧ ChunksPass prm cs f := by
  simp only [ChunksPass, List.dropLast_cons_of_ne_nil hcs, List.forall_mem_cons, List.head?_cons, ne_eq,
    Option.some.injEq]
  tauto

/-- The last chunk completes the frame unless it is dropped or goes past the cap. -/
theorem reassembles_hold_singleton_iff (hf : 0xDD :: bs ++ c0 :: ct = f) (hb : Bounded f) :
    Reassembles prm (.hold 0xDD bs) [c0 :: ct] f ↔ ChunksPass prm [c0 :: ct] f := by
  rw [reassembles_singleton_iff]
  by_cases hc0 : c0 = 0xDD
  · subst hc0
    rw [reassemble_same]
    exact iff_of_false nofun (fun h => h.1 _ (List.mem_singleton_self _) rfl)
  have hlen : (0xDD :: bs).length + (c0 :: ct).length = f.length := by rw [← hf, List.length_append]
  cases hcap : overCap prm.bufCap f.length with
  | true =>
    rw [reassemble_append_overflow hc0 (hlen ▸ hcap)]
    exact iff_of_false nofun (not_chunksPass_of_overCap hcap le_rfl)
  | false =>
    rw [reassemble_append_candidate hc0 (hlen ▸ hcap) (hf ▸ hb), hf]
    exact iff_of_true rfl ⟨by simpa using hc0, by simp, overCap_eq_false.1 hcap⟩

/-- The conditions of R100 once the beginning of the frame is held, by induction over the chunks. A chunk that begins
with DD is dropped, and the candidate then lacks its bytes (`length_le_of_reassembles`); one that ends with 77 completes
the buffer; one past the cap overflows; every other is appended. -/
theorem reassembles_hold_iff (hne : ∀ c ∈ cs, c ≠ []) (hcs : cs ≠ []) (hf : 0xDD :: bs ++ cs.flatten = f)
    (hb : Bounded f) : Reassembles prm (.hold 0xDD bs) cs f ↔ ChunksPass prm cs f := by
  induction cs generalizing bs with
  | nil => exact absurd rfl hcs
  | cons c cs ih =>
    obtain ⟨hc, htail⟩ := List.forall_mem_cons.1 hne
    obtain ⟨c0, ct, rfl⟩ := List.exists_cons_of_ne_nil hc
    by_cases hrest : cs = []
    · subst hrest
      rw [List.flatten_cons, List.flatten_nil, List.append_nil] at hf
      exact reassembles_hold_singleton_iff hf hb
    · have hlen := congrArg List.length hf
      rw [List.flatten_cons, List.length_append, List.length_append] at hlen
      rw [reassembles_cons_iff hrest, chunksPass_cons_iff hrest]
      by_cases hc0 : c0 = 0xDD
      · subst hc0
        rw [reassemble_same]
        refine iff_of_false (fun h => ?_) (fun h => h.1.1 rfl)
        have hle := length_le_of_reassembles htail h.2
        rw [contents_hold] at hle
        simp only [List.length_cons] at hle hlen
        omega
      cases hcap : overCap prm.bufCap ((0xDD :: bs).length + (c0 :: ct).length) with
      | true =>
        rw [reassemble_append_overflow hc0 hcap]
        exact iff_of_false (fun h => nomatch h.1) (fun h => not_chunksPass_of_overCap hcap (by omega) h.2)
      | false =>
        by_cases hlast : (c0 :: ct).getLast? = some 0x77
        · rw [reassemble_append_candidate hc0 hcap ((bounded_cons_append (by simp)).2 ⟨rfl, hlast⟩)]
          exact iff_of_false (fun h => nomatch h.1) (fun h => h.1.2 hlast)
        · rw [reassemble_append_held hc0 hcap (fun h => hlast ((bounded_cons_append (by simp)).1 h).2)]
          rw [List.flatten_cons, ← List.append_assoc, List.cons_append] at hf
          rw [ih htail hrest hf]
          exact (and_iff_right rfl).trans (and_iff_right ⟨hc0, hlast⟩).symm

end

/-- R100 for a frame in two or more chunks, from an empty buffer: its first chunk, which begins with DD, is stored when
it does not end with 77 and is within the cap. -/
theorem reassembles_empty_iff {prm : Params} {f c : Bytes} {cs : List Bytes} (hb : Bounded f)
    (hf : (c :: cs).flatten = f) (hne : ∀ d ∈ c :: cs, d ≠ []) (hcs : cs ≠ []) :
    Reassembles prm .empty (c :: cs) f ↔ c.getLast? ≠ some 0x77 ∧ ChunksPass prm cs f := by
  obtain ⟨hc, htail⟩ := List.forall_mem_cons.1 hne
  obtain ⟨c0, ct, rfl⟩ := List.exists_cons_of_ne_nil hc
  have hc0 : c0 = startByte := by
    have hhead := hb.1
    rw [← hf] at hhead
    exact Option.some.inj hhead
  subst hc0
  have hlen := congrArg List.length hf
  rw [List.flatten_cons, List.length_append] at hlen
  rw [reassembles_cons_iff hcs]
  by_cases hlast : (startByte :: ct).getLast? = some 0x77
  · have hbounded : Bounded (startByte :: ct) := ⟨rfl, hlast⟩
    rw [reassemble, if_pos ((boundaryOk_iff _).2 hbounded)]
    exact iff_of_false (fun h => nomatch h.1) (fun h => h.1 hlast)
  have hunframed : ¬ Bounded (startByte :: ct) := fun h => hlast h.2
  cases hcap : overCap prm.bufCap (startByte :: ct).length with
  | true =>
    rw [reassemble_store_overflow hunframed (.inl rfl) hcap]
    exact iff_of_false (fun h => nomatch h.1) (fun h => not_chunksPass_of_overCap hcap (by omega) h.2)
  | false =>
    rw [reassemble_store hunframed (.inl rfl) hcap]
    rw [List.flatten_cons] at hf
    exact (and_iff_right rfl).trans ((reassembles_hold_iff htail hcs hf hb).trans (and_iff_right hlast).symm)

/-- Settles O13, by `reassembles_empty_iff`: the conditions are those on the chunks after the first, and on the first that
it does not end with 77. -/
theorem chunkSizeInvarianceExactly : Obligations.ChunkSizeInvarianceExactly := by
  unfold Obligations.ChunkSizeInvarianceExactly
  intro prm f cs hb hf hne hlen
  obtain ⟨c, ds, rfl⟩ := List.exists_cons_of_length_pos (by omega : 0 < cs.length)
  have hds : ds ≠ [] := by
    rintro rfl
    simp at hlen
  refine (reassembles_empty_iff hb hf hne hds).trans ?_
  rw [ChunksPass, List.tail_cons, List.dropLast_cons_of_ne_nil hds, List.forall_mem_cons, and_assoc, and_left_comm]

/-- A run of FEEDs of non-empty chunks: the reassembler's last buffer, and the events of what it yielded, in order. -/
theorem feedAll_eq {cs : List Bytes} (hne : ∀ c ∈ cs, c ≠ []) (s : State) :
    feedAll cs s = .next { s with
      pb := (reassembleAll s.params cs s.pb).1,
      events := s.events ++ (reassembleAll s.params cs s.pb).2.flatMap (Yield.events s.params) } := by
  induction cs generalizing s with
  | nil => simp [feedAll, reassembleAll]
  | cons c cs ih =>
    obtain ⟨hc, htail⟩ := List.forall_mem_cons.1 hne
    obtain ⟨c0, ct, rfl⟩ := List.exists_cons_of_ne_nil hc
    rw [feedAll_cons_of_next (exec_feed_cons c0 ct s), ih htail]
    simp [reassembleAll]

/-- Settles O14: the chunks give the candidate `f` from the last of them and nothing before it (O13), so the run adds the
one event of the pipeline on `f`, as the single FEED does. -/
theorem chunkedFeedEqualsWholeFeed : Obligations.ChunkedFeedEqualsWholeFeed := by
  unfold Obligations.ChunkedFeedEqualsWholeFeed
  intro s f cs he hb hf hne hlen htail hlast hcap
  have hall := (chunkSizeInvarianceExactly s.params f cs hb hf hne hlen).2 ⟨htail, hlast, hcap⟩
  rw [feedAll_eq hne, he, hall, exec_feed_of_bounded he hb]
  simp [Yield.events, State.emit, he]

end Sys2Proof.Machine
end

/-! ## The text of programs (R72) -/

section
namespace Sys2Proof.Machine

theorem hexValue_hexDigit : ∀ n : Fin 16, hexValue (hexDigit n) = some n.val := by decide

theorem readByte_showByte (b : Byte) : readByte (hexDigit (b.toNat / 16)) (hexDigit (b.toNat % 16)) = some b := by
  have hlt := b.isLt
  have hhigh := hexValue_hexDigit ⟨b.toNat / 16, by omega⟩
  have hlow := hexValue_hexDigit ⟨b.toNat % 16, by omega⟩
  dsimp only at hhigh hlow
  rw [readByte, hhigh, hlow]
  dsimp only
  rw [Nat.div_add_mod, BitVec.ofNat_toNat, BitVec.setWidth_eq]

theorem showBytes_cons_ne_nil (b : Byte) (bs : Bytes) : showBytes (b :: bs) ≠ [] := by
  cases bs <;> simp [showBytes, showByte]

theorem readBytes_showBytes (bs : Bytes) : readBytes (showBytes bs) = some bs := by
  induction bs with
  | nil => rfl
  | cons b bs ih =>
    cases bs with
    | nil =>
      rw [showBytes, showByte, readBytes, readByte_showByte]
      rfl
    | cons b' bs =>
      obtain ⟨next, rest, htext⟩ := List.exists_cons_of_ne_nil (showBytes_cons_ne_nil b' bs)
      rw [htext] at ih
      rw [showBytes, showByte, htext, List.cons_append, List.cons_append, List.nil_append, readBytes, readByte_showByte,
        ih]
      · exact nofun

/-- Settles O40: the operand of a FEED line reads back (`readBytes_showBytes`). -/
theorem programLinesRoundTrip : Obligations.ProgramLinesRoundTrip := by
  unfold Obligations.ProgramLinesRoundTrip
  intro r text htext
  cases r with
  | feed c =>
    cases htext
    show (readBytes (showBytes c)).map Request.feed = _
    rw [readBytes_showBytes, Option.map_some]
  | reset =>
    cases htext
    rfl
  | readCommand03 => cases htext
  | readCommand04 => cases htext

end Sys2Proof.Machine
end

/-! ## STATUS with the layout of R136 (R137 to R152) -/

section
namespace Sys2Proof.Machine

theorem statusDecoded_standard {prm : Params} (h : prm.layout = .standard) (p : Bytes) :
    statusDecoded prm p = if p.length < 23 ∨ p.length < 23 + 2 * u8At p 22 then .shortPayload
      else .status (recordOf prm p) := by
  rw [statusDecoded, fieldAt_ntcCount h, h, fixedLen_standard, lenWithReadings_standard]

section
variable {s : State} (hl : s.params.layout = .standard) (b2 : Byte) {p : Bytes}
include hl

theorem exec_status_record (h : 23 + 2 * u8At p 22 ≤ p.length) :
    exec (.status b2 p) s = .next (s.emit (.status (recordOf s.params p))) := by
  rw [exec_status, statusDecoded_standard hl, if_neg (by omega)]
  rfl

theorem exec_status_short (h : p.length < 23 ∨ p.length < 23 + 2 * u8At p 22) :
    exec (.status b2 p) s = .next (s.emit (.decodeError .shortPayload (some (frameOf regStatus b2 p)))) := by
  rw [exec_status, statusDecoded_standard hl, if_pos h]
  rfl

end

/-- Settles O41, by the two outcomes of STATUS; 117 readings need 257 bytes. -/
theorem statusMinimumLength : Obligations.StatusMinimumLength := by
  unfold Obligations.StatusMinimumLength
  intro s b2 p hl
  exact ⟨exec_status_short hl b2, fun h => ⟨_, exec_status_record hl b2 h⟩,
    fun hle hcount => exec_status_short hl b2 (by omega)⟩

/-- Settles O42, by the record of a long enough payload (`recordOf_standard`). -/
theorem statusQuantities : Obligations.StatusQuantities := by
  unfold Obligations.StatusQuantities
  intro s b2 p hl h
  refine ⟨_, exec_status_record hl b2 h, ?_⟩
  rw [recordOf_standard hl]
  exact ⟨rfl, rfl, sext16_eq _, rfl, rfl, rfl, rfl, rfl⟩

theorem length_balanceFlags (maxCells cellCount w0 w1 : Nat) :
    (balanceFlags maxCells cellCount w0 w1).length = min cellCount maxCells := by
  simp [balanceFlags]

/-- Flag `i` is bit `i` of the first word below 16, and bit `i - 16` of the second from 16 on (R144). -/
theorem getElem?_balanceFlags {maxCells cellCount i : Nat} (w0 w1 : Nat) (h : i < min cellCount maxCells) :
    (balanceFlags maxCells cellCount w0 w1)[i]? =
      some (decide ((if i < 16 then w0 / 2 ^ i else w1 / 2 ^ (i - 16)) % 2 = 1)) := by
  rw [balanceFlags, List.getElem?_map, List.getElem?_range h, Option.map_some]
  split_ifs <;> rw [bit_eq]

/-- Settles O43: the date's bit fields of a 16-bit value, and the balance flags. -/
theorem statusDateAndBalance : Obligations.StatusDateAndBalance := by
  unfold Obligations.StatusDateAndBalance
  intro s b2 p hl h
  refine ⟨_, exec_status_record hl b2 h, ?_⟩
  have hdate := u16At_lt p 10
  rw [recordOf_standard hl]
  refine ⟨?_, ?_, ?_, length_balanceFlags _ _ _ _, fun i hi => getElem?_balanceFlags _ _ hi⟩
  · show 2000 + bits (u16At p 10) 15 9 = _
    rw [bits_eq]
    omega
  · show bits (u16At p 10) 8 5 = _
    rw [bits_eq]
    omega
  · show bits (u16At p 10) 4 0 = _
    rw [bits_eq]
    omega

theorem length_faultFlags (w : Nat) : (faultFlags w).length = 13 := by
  simp [faultFlags]

theorem getElem?_faultFlags {k : Nat} (w : Nat) (h : k < 13) : (faultFlags w)[k]? = some (decide (w / 2 ^ k % 2 = 1)) := by
  rw [faultFlags, List.getElem?_map, List.getElem?_range h, Option.map_some, bit_eq]

/-- Settles O44, field by field; the 13 flags and the 13 names pair off. -/
theorem statusFlagsAndBytes : Obligations.StatusFlagsAndBytes := by
  unfold Obligations.StatusFlagsAndBytes
  intro s b2 p hl h
  refine ⟨_, exec_status_record hl b2 h, ?_⟩
  rw [recordOf_standard hl]
  refine ⟨rfl, length_faultFlags _, fun k hk => getElem?_faultFlags _ hk, ?_, ?_, rfl, rfl, rfl, bit_eq _ _, bit_eq _ _,
    rfl, rfl⟩
  · exact List.map_fst_zip (by rw [Vector.length_toList, length_faultFlags])
  · exact List.map_snd_zip (by rw [Vector.length_toList, length_faultFlags])

/-- Settles O45: reading `i` is the two-byte field at `23 + 2i` less 2731, and 273.15 less 0.05 is 273.1. -/
theorem statusTemperatures : Obligations.StatusTemperatures := by
  unfold Obligations.StatusTemperatures
  intro s b2 p hl h
  refine ⟨_, exec_status_record hl b2 h, ?_⟩
  rw [recordOf_standard hl]
  have hread {i : Nat} (hi : i < u8At p 22) :
      (((List.range (u8At p 22)).map fun i => u16At p (23 + 2 * i)).map tempOf)[i]? =
        some ((u16At p (23 + 2 * i) : ℤ) - 2731) := by
    rw [List.getElem?_map, List.getElem?_map, List.getElem?_range hi]
    rfl
  refine ⟨by simp, fun i hi => ⟨hread hi, ?_⟩⟩
  rw [StatusRecord.temperatures, List.getElem?_map, hread hi, Option.map_some]
  congr 1
  push_cast
  ring

/-! ### What the record does not read (R70, D2, D12, D19) -/

/-- Two payloads with the same bytes up to the last reading, but for the fault word's high byte and the FET byte, give the
same record when their fault flags and the two FET bits agree. -/
theorem recordOf_congr {prm : Params} {p q : Bytes} (hl : prm.layout = .standard)
    (hbytes : ∀ i, i < 23 + 2 * u8At p 22 → i ≠ 16 → i ≠ 20 → u8At q i = u8At p i)
    (hfault : faultFlags (u16At q 16) = faultFlags (u16At p 16))
    (hcharge : bit (u8At q 20) prm.fetChargeBit = bit (u8At p 20) prm.fetChargeBit)
    (hdischarge : bit (u8At q 20) prm.fetDischargeBit = bit (u8At p 20) prm.fetDischargeBit) :
    recordOf prm q = recordOf prm p := by
  have hwords {i : Nat} (h : i + 1 < 23 + 2 * u8At p 22) (h16 : i < 15 ∨ 20 < i) : u16At q i = u16At p i := by
    rw [u16At, u16At, hbytes i (by omega) (by omega) (by omega), hbytes (i + 1) h (by omega) (by omega)]
  have hreadings : (List.range (u8At p 22)).map (fun i => u16At q (23 + 2 * i)) =
      (List.range (u8At p 22)).map fun i => u16At p (23 + 2 * i) := by
    apply List.map_congr_left
    intro i hi
    have hi := List.mem_range.1 hi
    exact hwords (by omega) (by omega)
  rw [recordOf_standard hl, recordOf_standard hl, hfault, hcharge, hdischarge, hbytes 22 (by omega) (by omega) (by omega),
    hreadings]
  simp (disch := omega) only [hwords, hbytes]

/-- Settles O47: B2 is in no field of the record, and the fields of the longer payload are those of the shorter
(`recordOf_congr`). -/
theorem statusIgnoresB2AndSurplus : Obligations.StatusIgnoresB2AndSurplus := by
  unfold Obligations.StatusIgnoresB2AndSurplus
  intro s b2 b2' p extra hl h
  have hbyte {i : Nat} (hi : i < 23 + 2 * u8At p 22) : u8At (p ++ extra) i = u8At p i := u8At_append (by omega)
  have hrecord : recordOf s.params (p ++ extra) = recordOf s.params p :=
    recordOf_congr hl (fun i hi _ _ => hbyte hi) (by rw [u16At_append (by omega)]) (by rw [hbyte (by omega)])
      (by rw [hbyte (by omega)])
  have hlong : 23 + 2 * u8At (p ++ extra) 22 ≤ (p ++ extra).length := by
    rw [hbyte (by omega), List.length_append]
    omega
  rw [exec_status_record hl b2' hlong, exec_status_record hl b2 h, hrecord]

/-- The 13 flags depend on the fault word modulo `2^13` only (R145). -/
theorem faultFlags_congr {w w' : Nat} (h : w % 2 ^ 13 = w' % 2 ^ 13) : faultFlags w = faultFlags w' :=
  List.map_congr_left fun _ hk => bit_congr (List.mem_range.1 hk) h

/-- Settles O48: the two bytes written are the fault word's high byte and the FET byte; the flags read neither bits 15:13
of the one (`faultFlags_congr`) nor bits 7:2 of the other (`bit_congr`). -/
theorem statusIgnoresReservedBits : Obligations.StatusIgnoresReservedBits := by
  unfold Obligations.StatusIgnoresReservedBits
  intro s b2 p hi fet hl hcharge hdischarge h hhi hfet
  have hbyte {i : Nat} (h16 : i ≠ 16) (h20 : i ≠ 20) : u8At ((p.set 16 hi).set 20 fet) i = u8At p i := by
    rw [u8At_set_ne h20.symm, u8At_set_ne h16.symm]
  have h16 : u8At ((p.set 16 hi).set 20 fet) 16 = hi.toNat := by
    rw [u8At_set_ne (by decide), u8At_set_eq (by omega)]
  have h20 : u8At ((p.set 16 hi).set 20 fet) 20 = fet.toNat := u8At_set_eq (by rw [List.length_set]; omega)
  have hrecord : recordOf s.params ((p.set 16 hi).set 20 fet) = recordOf s.params p := by
    refine recordOf_congr hl (fun i _ h16 h20 => hbyte h16 h20) (faultFlags_congr ?_) ?_ ?_
    · have hlow := u8At_lt p 17
      rw [u16At, u16At, h16, hbyte (by decide) (by decide)]
      omega
    · rw [h20, hcharge]
      exact bit_congr (n := 2) (by decide) hfet
    · rw [h20, hdischarge]
      exact bit_congr (n := 2) (by decide) hfet
  have hlong : 23 + 2 * u8At ((p.set 16 hi).set 20 fet) 22 ≤ ((p.set 16 hi).set 20 fet).length := by
    rw [hbyte (by decide) (by decide), List.length_set, List.length_set]
    exact h
  rw [exec_status_record hl b2 hlong, exec_status_record hl b2 h, hrecord]

end Sys2Proof.Machine
end

/-! ## A record encoded and decoded (R154) -/

section
namespace Sys2Proof.Machine

/-! ### The fields of the encoder, each read back -/

theorem bytesOf16_value {v : Nat} (h : v < 65536) :
    (BitVec.ofNat 8 (v / 256)).toNat * 256 + (BitVec.ofNat 8 v).toNat = v := by
  rw [BitVec.toNat_ofNat, BitVec.toNat_ofNat]
  omega

theorem byte_value {v : Nat} (h : v ≤ 255) : (BitVec.ofNat 8 v).toNat = v := by
  rw [BitVec.toNat_ofNat]
  omega

theorem sext16_emod {v : Int} (hlow : -32768 ≤ v) (hhigh : v ≤ 32767) : sext16 (v % 65536).toNat = v := by
  rw [sext16_eq]
  split_ifs <;> omega

theorem wordOfFlags_lt (bs : List Bool) : wordOfFlags bs < 2 ^ bs.length := by
  induction bs with
  | nil => decide
  | cons b bs ih =>
    have := b.toNat_le
    rw [wordOfFlags, List.length_cons, pow_succ]
    omega

/-- The word of at most 16 flags fits two bytes. -/
theorem wordOfFlags_lt_of_length_le {bs : List Bool} (h : bs.length ≤ 16) : wordOfFlags bs < 65536 :=
  (wordOfFlags_lt bs).trans_le (Nat.pow_le_pow_right (by decide) h)

/-- Bit `i` of the word is flag `i`; there is none above the flags. -/
theorem bit_wordOfFlags (bs : List Bool) (i : Nat) : bit (wordOfFlags bs) i = bs.getD i false := by
  induction bs generalizing i with
  | nil => simp [wordOfFlags, bit_eq_testBit]
  | cons b bs ih =>
    rw [bit_eq, wordOfFlags]
    cases i with
    | zero => cases b <;> simp [Nat.add_mod]
    | succ i =>
      have hdiv : (b.toNat + 2 * wordOfFlags bs) / 2 ^ (i + 1) = wordOfFlags bs / 2 ^ i := by
        have := b.toNat_le
        rw [pow_succ', ← Nat.div_div_eq_div_mul]
        congr 1
        omega
      rw [hdiv, ← bit_eq, ih, List.getD_cons_succ]

theorem faultFlags_wordOfFlags {bs : List Bool} (h : bs.length = 13) : faultFlags (wordOfFlags bs) = bs := by
  conv_rhs => rw [← getD_map_range bs false, h]
  exact List.map_congr_left fun i _ => bit_wordOfFlags bs i

/-- The two balance words hold cells 0 to 15 and the rest (R144). -/
theorem balanceFlags_wordOfFlags {bs : List Bool} {maxCells cellCount : Nat} (h : bs.length = min cellCount maxCells) :
    balanceFlags maxCells cellCount (wordOfFlags (bs.take 16)) (wordOfFlags (bs.drop 16)) = bs := by
  conv_rhs => rw [← getD_map_range bs false, h]
  refine List.map_congr_left fun i _ => ?_
  split_ifs with hi
  · rw [bit_wordOfFlags, List.getD_eq_getElem?_getD, List.getElem?_take_of_lt hi, ← List.getD_eq_getElem?_getD]
  · rw [bit_wordOfFlags, List.getD_eq_getElem?_getD, List.getElem?_drop, Nat.add_sub_cancel' (not_lt.1 hi),
      ← List.getD_eq_getElem?_getD]

/-- The packed date has its three fields where R143 reads them. -/
theorem dateWord_fields {year month day : Nat} (hy : 2000 ≤ year) (hy' : year ≤ 2127) (hm : month ≤ 15) (hd : day ≤ 31) :
    dateWord year month day < 65536 ∧ 2000 + bits (dateWord year month day) 15 9 = year ∧
      bits (dateWord year month day) 8 5 = month ∧ bits (dateWord year month day) 4 0 = day := by
  rw [dateWord, bits_eq, bits_eq, bits_eq]
  omega

theorem tempOf_toNat {t : Int} (h : -2731 ≤ t) : tempOf (t + 2731).toNat = t := by
  rw [tempOf]
  omega

/-! ### The payload of the encoder: nine words, five bytes, and the readings as words -/

/-- The two-byte fields of the encoder, in order. -/
def statusWords (r : StatusRecord) : List Nat :=
  [r.voltageRaw, (r.currentRaw % 65536).toNat, r.balanceCapacityRaw, r.fullCapacityRaw, r.cycles,
    dateWord r.year r.month r.day, wordOfFlags (r.balance.take 16), wordOfFlags (r.balance.drop 16), wordOfFlags r.fault]

/-- The one-byte fields of the encoder, in order. -/
def statusBytes (r : StatusRecord) : List Nat :=
  [r.fwRaw, r.soc, fetByte r.chargingEnabled r.dischargingEnabled, r.cellCount, r.ntcCount]

/-- The raw temperature readings of the encoder. -/
def readingWords (ts : List Int) : List Nat := ts.map fun t => (t + 2731).toNat

theorem statusPayload_eq (r : StatusRecord) :
    statusPayload r = (statusWords r).flatMap bytesOf16 ++
      ((statusBytes r).map (BitVec.ofNat 8) ++ (readingWords r.tempDC).flatMap bytesOf16) := by
  simp only [statusPayload, statusWords, statusBytes, readingWords, List.flatMap_cons, List.flatMap_nil, List.map_cons,
    List.map_nil, List.flatMap_map, List.append_assoc, List.append_nil]

theorem length_flatMap_bytesOf16 (ws : List Nat) : (ws.flatMap bytesOf16).length = 2 * ws.length := by
  induction ws with
  | nil => rfl
  | cons w ws ih =>
    rw [List.flatMap_cons, List.length_append, ih, List.length_cons, show (bytesOf16 w).length = 2 from rfl]
    omega

theorem length_statusPayload (r : StatusRecord) : (statusPayload r).length = 23 + 2 * r.tempDC.length := by
  rw [statusPayload_eq, List.length_append, List.length_append, length_flatMap_bytesOf16, length_flatMap_bytesOf16,
    List.length_map, readingWords, List.length_map, show (statusWords r).length = 9 from rfl,
    show (statusBytes r).length = 5 from rfl]
  omega

theorem u16At_append_right (p e : Bytes) (i : Nat) : u16At (p ++ e) (p.length + i) = u16At e i := by
  rw [u16At, u16At, add_assoc, u8At_append_right, u8At_append_right]

/-- Words laid out one after the other are read back at the even offsets, by induction over them. -/
theorem u16At_flatMap_bytesOf16 {ws : List Nat} {i : Nat} (rest : Bytes) (hw : ∀ w ∈ ws, w < 65536)
    (hi : i < ws.length) : u16At (ws.flatMap bytesOf16 ++ rest) (2 * i) = ws.getD i 0 := by
  induction ws generalizing i with
  | nil => cases hi
  | cons w ws ih =>
    obtain ⟨hw0, hws⟩ := List.forall_mem_cons.1 hw
    rw [List.flatMap_cons, List.append_assoc]
    cases i with
    | zero => exact bytesOf16_value hw0
    | succ i =>
      rw [show 2 * (i + 1) = (bytesOf16 w).length + 2 * i from Nat.add_comm (2 * i) 2, u16At_append_right]
      exact ih hws (Nat.lt_of_succ_lt_succ hi)

/-- The readings come back in order. -/
theorem readings_readingWords {ts : List Int} (h : ∀ t ∈ ts, -2731 ≤ t ∧ t ≤ 62804) :
    ((List.range ts.length).map fun i => u16At ((readingWords ts).flatMap bytesOf16) (2 * i)).map tempOf = ts := by
  have hw : ∀ w ∈ readingWords ts, w < 65536 := by
    intro w hw
    obtain ⟨t, ht, rfl⟩ := List.mem_map.1 hw
    have := h t ht
    omega
  have hlen : (readingWords ts).length = ts.length := List.length_map _
  have hread : ((List.range ts.length).map fun i => u16At ((readingWords ts).flatMap bytesOf16) (2 * i)) =
      readingWords ts := by
    conv_rhs => rw [← getD_map_range (readingWords ts) 0, hlen]
    refine List.map_congr_left fun i hi => ?_
    have hget := u16At_flatMap_bytesOf16 [] hw (hlen ▸ List.mem_range.1 hi)
    rwa [List.append_nil] at hget
  rw [hread, readingWords, List.map_map]
  exact (List.map_congr_left fun t ht => tempOf_toNat (h t ht).1).trans (List.map_id ts)

theorem u16At_statusPayload_reading (r : StatusRecord) (i : Nat) :
    u16At (statusPayload r) (23 + 2 * i) = u16At ((readingWords r.tempDC).flatMap bytesOf16) (2 * i) := by
  rw [statusPayload_eq, ← List.append_assoc]
  exact u16At_append_right ((statusWords r).flatMap bytesOf16 ++ (statusBytes r).map (BitVec.ofNat 8)) _ (2 * i)

theorem u8At_statusPayload_byte {r : StatusRecord} {j : Nat} (hb : ∀ b ∈ statusBytes r, b ≤ 255) (hj : j < 5) :
    u8At (statusPayload r) (18 + j) = (statusBytes r).getD j 0 := by
  have hj' : j < (statusBytes r).length := hj
  have hget : (statusBytes r).getD j 0 = (statusBytes r)[j] := by simp [hj']
  rw [statusPayload_eq]
  refine (u8At_append_right ((statusWords r).flatMap bytesOf16) _ j).trans ?_
  rw [u8At_append (by simpa using hj'), hget, ← byte_value (hb _ (List.getElem_mem hj'))]
  simp [u8At, hj']

section
variable {r : StatusRecord} (h : r.inRange = true)
include h

/-- Every two-byte field of an in-range record fits its two bytes. -/
theorem statusWords_lt : ∀ w ∈ statusWords r, w < 65536 := by
  simp only [StatusRecord.inRange, Bool.and_eq_true, decide_eq_true_eq, and_assoc] at h
  obtain ⟨hv, -, -, hbc, hfc, -, hcyc, hy0, hy1, hm, hd, hbal, hfault, -⟩ := h
  have hdate := (dateWord_fields hy0 hy1 hm hd).1
  have hflags (bs : List Bool) (h : bs.length ≤ 16) := wordOfFlags_lt_of_length_le h
  have hlow := hflags (r.balance.take 16) (by rw [List.length_take]; omega)
  have hhigh := hflags (r.balance.drop 16) (by rw [List.length_drop]; omega)
  have hword := hflags r.fault (by omega)
  simp only [statusWords, List.forall_mem_cons]
  exact ⟨by omega, by omega, by omega, by omega, by omega, hdate, hlow, hhigh, hword, nofun⟩

/-- Every one-byte field of an in-range record fits its byte. -/
theorem statusBytes_le : ∀ b ∈ statusBytes r, b ≤ 255 := by
  simp only [StatusRecord.inRange, Bool.and_eq_true, decide_eq_true_eq, and_assoc] at h
  obtain ⟨-, -, -, -, -, hsoc, -, -, -, -, -, -, -, hfw, hcells, hntc, -⟩ := h
  have hfet : fetByte r.chargingEnabled r.dischargingEnabled < 4 := wordOfFlags_lt _
  simp only [statusBytes, List.forall_mem_cons]
  exact ⟨hfw, hsoc, by omega, hcells, by omega, nofun⟩

theorem ntcCount_of_inRange : u8At (statusPayload r) 22 = r.ntcCount ∧ r.tempDC.length = r.ntcCount ∧
    r.ntcCount ≤ 116 := by
  have hbyte : u8At (statusPayload r) 22 = r.ntcCount := u8At_statusPayload_byte (statusBytes_le h) (j := 4) (by decide)
  simp only [StatusRecord.inRange, Bool.and_eq_true, decide_eq_true_eq, and_assoc] at h
  obtain ⟨-, -, -, -, -, -, -, -, -, -, -, -, -, -, -, hntc, htemps, -⟩ := h
  exact ⟨hbyte, htemps, hntc⟩

/-- The record of the encoder's payload is the record encoded: each field reads back from its place. -/
theorem recordOf_statusPayload {prm : Params} (hl : prm.layout = .standard) (hmax : prm.maxBalanceCells = 32)
    (hcharge : prm.fetChargeBit = 0) (hdischarge : prm.fetDischargeBit = 1) :
    recordOf prm (statusPayload r) = r := by
  have hword {i : Nat} (hi : i < 9) : u16At (statusPayload r) (2 * i) = (statusWords r).getD i 0 := by
    rw [statusPayload_eq]
    exact u16At_flatMap_bytesOf16 _ (statusWords_lt h) hi
  have hbyte {j : Nat} (hj : j < 5) : u8At (statusPayload r) (18 + j) = (statusBytes r).getD j 0 :=
    u8At_statusPayload_byte (statusBytes_le h) hj
  obtain ⟨hcount, htemps, -⟩ := ntcCount_of_inRange h
  simp only [StatusRecord.inRange, Bool.and_eq_true, decide_eq_true_eq, and_assoc] at h
  obtain ⟨-, hc0, hc1, -, -, -, -, hy0, hy1, hm, hd, hbal, hfault, -, -, -, -, htemp⟩ := h
  obtain ⟨-, hyear, hmonth, hday⟩ := dateWord_fields hy0 hy1 hm hd
  have hreadings : ((List.range (u8At (statusPayload r) 22)).map fun i => u16At (statusPayload r) (23 + 2 * i)).map
      tempOf = r.tempDC := by
    simp only [hcount, ← htemps, u16At_statusPayload_reading]
    exact readings_readingWords htemp
  have hcurrent := sext16_emod hc0 hc1
  have hbalance := balanceFlags_wordOfFlags (hmax ▸ hbal)
  have hfaults := faultFlags_wordOfFlags hfault
  have hfet (k : Nat) : bit (fetByte r.chargingEnabled r.dischargingEnabled) k = _ := bit_wordOfFlags _ k
  rw [recordOf_standard hl, hreadings, hcharge, hdischarge, hcount,
    show u16At (statusPayload r) 0 = _ from hword (i := 0) (by decide),
    show u16At (statusPayload r) 2 = _ from hword (i := 1) (by decide),
    show u16At (statusPayload r) 4 = _ from hword (i := 2) (by decide),
    show u16At (statusPayload r) 6 = _ from hword (i := 3) (by decide),
    show u16At (statusPayload r) 8 = _ from hword (i := 4) (by decide),
    show u16At (statusPayload r) 10 = _ from hword (i := 5) (by decide),
    show u16At (statusPayload r) 12 = _ from hword (i := 6) (by decide),
    show u16At (statusPayload r) 14 = _ from hword (i := 7) (by decide),
    show u16At (statusPayload r) 16 = _ from hword (i := 8) (by decide),
    show u8At (statusPayload r) 18 = _ from hbyte (j := 0) (by decide),
    show u8At (statusPayload r) 19 = _ from hbyte (j := 1) (by decide),
    show u8At (statusPayload r) 20 = _ from hbyte (j := 2) (by decide),
    show u8At (statusPayload r) 21 = _ from hbyte (j := 3) (by decide)]
  simp only [statusWords, statusBytes, List.getD_cons_zero, List.getD_cons_succ, hcurrent, hyear, hmonth, hday, hbalance,
    hfaults, hfet]
  rfl

end

/-- Settles O49: the frame is a STATUS instruction on the encoder's payload (`exec_feed_frameOf`), which has the bytes its
reading count needs, and whose record is the one encoded (`recordOf_statusPayload`). -/
theorem statusRecordRoundTrip : Obligations.StatusRecordRoundTrip := by
  unfold Obligations.StatusRecordRoundTrip
  intro r s hr hl hmax hcharge hdischarge he
  obtain ⟨hcount, htemps, hntc⟩ := ntcCount_of_inRange hr
  have hlen := length_statusPayload r
  calc exec (.feed (frame 0x03 (statusPayload r))) s
      = exec (.status 0x00 (statusPayload r)) s := exec_feed_frameOf he regStatus 0x00 (by omega)
    _ = .next (s.emit (.status (recordOf s.params (statusPayload r)))) := exec_status_record hl 0x00 (by omega)
    _ = .next (s.emit (.status r)) := by rw [recordOf_statusPayload hr hl hmax hcharge hdischarge]

end Sys2Proof.Machine
end
